-- ==== Sys2Proof/Word.lean ====
section
/-! DEFINITION. The widths the spec gives its values: engine words, bytes, and the 56-bit length field
(00_scope R11, R12). Nothing else. -/

namespace Sys2Proof

/-- A 64-bit unsigned word: an engine word, a command word, a response word (00_scope R9, R11). -/
abbrev Word := BitVec 64

/-- One byte of the scratch buffer (10_state R20). -/
abbrev Byte := BitVec 8

/-- The 56-bit length field, also the width of REM, ACC and COUNT (00_scope R11). -/
abbrev Len := BitVec 56

end Sys2Proof
end

