-- ==== Sys2Proof/Syntax.lean ====
section
/-! DEFINITION. The commands of the block: one constructor per row of spec/opcode_table.json. A word that
decodes to ILLEGAL is no command; Decode.lean names why. -/

namespace Sys2Proof

/-- A command (30_encoding R55, R57). Only READ has an operand (R56); WRITE ignores its LEN bits (R60), so they are
no operand of it. -/
inductive Instr where
  /-- `SEED` (40_engine R69). -/
  | seed
  /-- `NEXT` (40_engine R74). -/
  | next
  /-- `READ n`, n the 56-bit LEN field, unsigned (41_stream_buffer R81, 30_encoding R56). -/
  | read (n : Len)
  /-- `WRITE` (41_stream_buffer R98). -/
  | write
  deriving DecidableEq, Repr

end Sys2Proof
end

