-- ==== Sys2Proof/Decode.lean ====
section
/-! DEFINITION. Decoding of the 64-bit command word (30_encoding R54 to R60), total, refusing by name; then the
encoder (R66) and the opcode table (opcode_table.json, R57). -/

namespace Sys2Proof

/-- `OP = c[63:56]` (30_encoding R54). -/
def opField (c : Word) : BitVec 8 := c.extractLsb' 56 8

/-- `LEN = c[55:0]` (30_encoding R54). -/
def lenField (c : Word) : Len := c.extractLsb' 0 56

/-- `{op, len}`: a command word from its two fields (00_scope R12, 30_encoding R54). -/
def commandWord (op : BitVec 8) (len : Len) : Word := op ++ len

/-- Why a word decodes to ILLEGAL (60_exceptions R107). -/
inductive IllegalCause where
  /-- OP is 0x00 or one of 0x05..0xFF (30_encoding R58). -/
  | reservedOpcode (op : BitVec 8)
  /-- A SEED or NEXT word whose LEN is not zero (30_encoding R59). -/
  | reservedLen (op : BitVec 8) (len : Len)
  deriving DecidableEq, Repr

/-- What a word decodes to: a command, or ILLEGAL with its cause (30_encoding R57). -/
inductive Decoded where
  | instr (i : Instr)
  | illegal (cause : IllegalCause)
  deriving DecidableEq, Repr

/-- `decode(c)`, in the order of tests of 30_encoding R57: OP first, then the reserved LEN (60_exceptions R112). -/
def decode (c : Word) : Decoded :=
  if opField c = 0x01#8 then
    if lenField c = 0#56 then .instr .seed else .illegal (.reservedLen (opField c) (lenField c))
  else if opField c = 0x02#8 then
    if lenField c = 0#56 then .instr .next else .illegal (.reservedLen (opField c) (lenField c))
  else if opField c = 0x03#8 then .instr (.read (lenField c))
  else if opField c = 0x04#8 then .instr .write
  else .illegal (.reservedOpcode (opField c))

/-- The command a word stands for, if it stands for one. -/
def Decoded.instr? : Decoded → Option Instr
  | .instr i => some i
  | .illegal _ => none

/-- The word of a command, by the assembler's table (30_encoding R66); `WRITE` alone is encoded with LEN = 0. -/
def encode : Instr → Word
  | .seed   => commandWord 0x01#8 0#56
  | .next   => commandWord 0x02#8 0#56
  | .read n => commandWord 0x03#8 n
  | .write  => commandWord 0x04#8 0#56

/-- The mnemonics of spec/opcode_table.json. -/
inductive Mnemonic where
  | SEED
  | NEXT
  | READ
  | WRITE
  deriving DecidableEq, Repr

/-- The row of the table a command belongs to. -/
def Instr.mnemonic : Instr → Mnemonic
  | .seed   => .SEED
  | .next   => .NEXT
  | .read _ => .READ
  | .write  => .WRITE

/-- One row of spec/opcode_table.json: a word belongs to it when `(c & mask) = match`. -/
structure OpcodeRow where
  mnemonic : Mnemonic
  bits     : Word
  mask     : Word
  deriving DecidableEq, Repr

/-- spec/opcode_table.json, row by row. -/
def opcodeTable : List OpcodeRow :=
  [ ⟨.SEED,  0x0100000000000000#64, 0xFFFFFFFFFFFFFFFF#64⟩,
    ⟨.NEXT,  0x0200000000000000#64, 0xFFFFFFFFFFFFFFFF#64⟩,
    ⟨.READ,  0x0300000000000000#64, 0xFF00000000000000#64⟩,
    ⟨.WRITE, 0x0400000000000000#64, 0xFF00000000000000#64⟩ ]

/-- `(c & mask) = match` (30_encoding R57). -/
def OpcodeRow.hits (r : OpcodeRow) (c : Word) : Bool := (c &&& r.mask) == r.bits

/-- The rows of the table a word matches. -/
def matchingRows (c : Word) : List OpcodeRow := opcodeTable.filter (fun r => r.hits c)

/-- The word on the command port whose bits are `w`, `nbits` of them given and the rest zero. Bit 0 is the least
significant bit; a command is one 64-bit word and has no byte layout (30_encoding R54, R65). -/
def portWord (nbits w : Nat) : Word := BitVec.ofNat 64 (w % 2 ^ nbits)

/-- The command the decoder reads from a word given in the numbering of spec/opcode_table.json; none for a word
that is ILLEGAL or longer than the one command length of 64 bits (30_encoding R65). -/
def decodeTableWord (nbits w : Nat) : Option Instr :=
  if nbits ≤ 64 then (decode (portWord nbits w)).instr? else none

end Sys2Proof
end

