-- ==== Sys2Proof/Config.lean ====
section
/-! DEFINITION. What an instance of the block fixes for its life (00_scope R10) and the one free value of the
model. The constants of the engine are no parameters (40_engine R72): they stand in Machine/Ops.lean. -/

namespace Sys2Proof

/-- The order in which one engine word becomes 8 buffer bytes (20_memory R38). -/
inductive ByteOrder where
  | le
  | be
  deriving DecidableEq, Repr

/-- The two free parameters of 00_scope R10. They are held in State as a field that no step changes, so that a
statement about every state is a statement about every instance (log entry 1). -/
structure Config where
  /-- `CAP_WORDS`: buffer capacity in 64-bit words, any integer ≥ 1. -/
  capWords  : Nat
  /-- `BYTE_ORDER`. -/
  byteOrder : ByteOrder
  deriving DecidableEq, Repr

/-- `CAP = 8 * CAP_WORDS`, the buffer capacity in bytes (00_scope R10). -/
def Config.cap (c : Config) : Nat := 8 * c.capWords

/-- The least width that holds every value of `0 .. n` (00_scope R11). -/
def leastWidth (n : Nat) : Nat := if n = 0 then 0 else Nat.log2 n + 1

/-- `CUR_W`, the width of CUR and of NCH: the least width holding `0 .. CAP` (00_scope R11, 10_state R16). -/
def Config.curWidth (c : Config) : Nat := leastWidth c.cap

/-- `K_W`, the width of K: the least width holding `0 .. CAP_WORDS` (00_scope R11, 10_state R16). -/
def Config.kWidth (c : Config) : Nat := leastWidth c.capWords

/-- The reference configuration: `CAP_WORDS = 128`, `BYTE_ORDER = LE` (00_scope R10). -/
def Config.reference : Config := ⟨128, .le⟩

/-- FREE VALUE (log entry 10): the LEN bits an assembler puts into `WRITE n` when n does not fit 56 bits.
30_encoding R66 allows any n and gives zext_56(n), which says nothing for such an n. No step of the block uses it. -/
opaque Config.overlongLen : Nat → Len

end Sys2Proof
end

