-- ==== Sys2Proof/Machine/State.lean ====
section
/-! DEFINITION. The state of the block (10_state R16), the host's moves and the record of the interface, the
reasons a step can stop, and the state after reset (70_reset_and_hazards R125). -/

namespace Sys2Proof.Machine

/-- GeneratorState: the 16 engine words and the state pointer (10_state R16 to R18). -/
structure GeneratorState where
  /-- `S[0..15]`. -/
  S : Vector Word 16
  /-- `p`, 4 bits, every value legal. -/
  p : BitVec 4
  deriving DecidableEq, Repr

/-- The command FSM state, in place of a program counter (10_state R24). -/
inductive Fsm where
  | idle
  | readLoop
  | refill
  | xfer
  deriving DecidableEq, Repr

/-- The scratch buffer BUF: the bytes some refill has written, by offset. A byte not listed is unknown
(10_state R35). -/
abbrev Memory := List Host.Cell

/-- The canonical form of BUF: offsets strictly rising. An unlisted offset reads as no value, so no cell can equal
what an unlisted offset reads as. -/
abbrev Memory.wf (m : Memory) : Prop := m.Pairwise (fun x y => x.1 < y.1)

/-- Every listed offset lies below `cap` (10_state R20). -/
abbrev Memory.within (m : Memory) (cap : Nat) : Prop := ∀ c ∈ m, c.1 < cap

/-- The host's answer to a chunk offer (30_encoding R64): `ack` is ANS = 0, `fault` is ANS = 1. -/
inductive Answer where
  | ack
  | fault
  deriving DecidableEq, Repr

/-- What the host drives during one step of the block (60_exceptions R124): reset asserted or not, a command word
presented or none, an answer given or none. -/
structure HostInput where
  reset : Bool
  word  : Option Word
  ans   : Option Answer
  deriving DecidableEq, Repr

/-- The status of a response (30_encoding R63). The reserved codes 0x04..0xFF have no constructor. -/
inductive Status where
  | ok
  | unsupportedOperation
  | illegalCommand
  | transferFault
  deriving DecidableEq, Repr

/-- The errors a command can end with (60_exceptions R105). -/
inductive BlockError where
  | unsupportedOperation
  | illegalCommand
  | transferFault
  deriving DecidableEq, Repr

/-- The response of an accepted command (30_encoding R61). -/
structure Response where
  status : Status
  result : Word
  count  : Len
  deriving DecidableEq, Repr

/-- What crosses the interface in a step (the model's record, log entry 4). -/
inductive Event where
  /-- The block accepted this command word (41_stream_buffer R82). -/
  | accepted (c : Word)
  /-- The block emitted this response (30_encoding R62). -/
  | responded (r : Response)
  /-- A chunk was offered and answered (41_stream_buffer R87). -/
  | offered (chunk : List Byte) (ans : Answer)
  /-- Reset took effect; `aborted` says that a command was in progress (70_reset_and_hazards R126). -/
  | resetTaken (aborted : Bool)
  deriving DecidableEq, Repr

/-- The machine. `gen` to `acc` are exactly the elements of 10_state R16; `cfg` is the instance's parameters
(00_scope R10); `inputs` is the host agent (log entry 2) and `log` the record of the interface (log entry 4), the
model's own fields. -/
structure State where
  /-- `CAP_WORDS` and `BYTE_ORDER`; no step changes them (20_memory R39). -/
  cfg    : Config
  /-- `S[0..15]` and `p`. -/
  gen    : GeneratorState
  /-- `BUF`. -/
  buf    : Memory
  /-- `CUR`, the offset of the next unread byte (10_state R21), a register of `cfg.curWidth` bits (log entry 9). -/
  cur    : Nat
  /-- `fsm`. -/
  fsm    : Fsm
  /-- `REM`, the bytes the current READ has still to deliver (10_state R25). -/
  rem    : Len
  /-- `K`, the words written so far in the current refill (10_state R26), a register of `cfg.kWidth` bits. -/
  k      : Nat
  /-- `NCH`, the length of the chunk on offer (10_state R27), a register of `cfg.curWidth` bits. -/
  nch    : Nat
  /-- `ACC`, the bytes acknowledged so far in the current READ (10_state R28). -/
  acc    : Len
  /-- The host's moves to come, one per step; past the end the host is quiet. -/
  inputs : List HostInput
  /-- What has crossed the interface, oldest first. No step reads it. -/
  log    : List Event
  deriving DecidableEq, Repr

/-- Why the machine stops. None of these can be reached from reset; all are safe: the model stops where the spec gives
no meaning. -/
inductive Fault where
  /-- Raised by the chunk read of XFER when BUF at this offset was never written by a refill (10_state R35). Safe. -/
  | unknownByte (off : Nat)
  /-- Raised by MemRead and MemWrite for an access that is not within BUF, where 00_scope R13 does not define them. Safe. -/
  | bufferRange (off n : Nat)
  /-- Raised by the FSM steps when the registers hold values for which the transition table 41_stream_buffer R84 has no
  row (CUR above CAP, K above CAP_WORDS, NCH zero or above REM). Safe. -/
  | noRow (f : Fsm)
  deriving DecidableEq, Repr

/-- What the model declines. -/
inductive Refusal where
  /-- Raised only by an arm of `exec` whose instruction has no meaning yet. Safe. -/
  | notModelled (mnemonic : String)
  deriving DecidableEq, Repr

/-- What a step answers. -/
abbrev Result := Host.Outcome State Fault Refusal

/-- `SEED_STATE()`: `S[i] = i + 1` and `p = 0` (40_engine R68, 90_conflicts C1). -/
def GeneratorState.seed : GeneratorState :=
  ⟨Vector.ofFn (fun i : Fin 16 => BitVec.ofNat 64 (i.val + 1)), 0#4⟩

/-- The state the first reset leaves in an instance with parameters `cfg` (70_reset_and_hazards R125): BUF
unknown, nothing yet on the interface. -/
def State.resetOf (cfg : Config) : State where
  cfg    := cfg
  gen    := GeneratorState.seed
  buf    := []
  cur    := cfg.cap
  fsm    := .idle
  rem    := 0#56
  k      := 0
  nch    := 0
  acc    := 0#56
  inputs := []
  log    := []

/-- The machine right after reset, in the reference configuration (10_state R16, 00_scope R10). -/
def State.reset : State := State.resetOf Config.reference

end Sys2Proof.Machine
end

