-- ==== Sys2Proof/Machine/Ops.lean ====
section
/-! DEFINITION. The named operations over the state: register writes, the buffer, the engine step, the byte
order, the response, raising an error, taking reset, and the host's port. -/

namespace Sys2Proof.Machine

/-! ## Register writes -/

/-- `S, p <- g`. -/
def State.withGen (s : State) (g : GeneratorState) : State := { s with gen := g }
/-- `BUF <- m`. -/
def State.withBuf (s : State) (m : Memory) : State := { s with buf := m }
/-- `CUR <- v`. -/
def State.withCur (s : State) (v : Nat) : State := { s with cur := v }
/-- `fsm <- f` (00_scope R13). -/
def State.withFsm (s : State) (f : Fsm) : State := { s with fsm := f }
/-- `REM <- v`. -/
def State.withRem (s : State) (v : Len) : State := { s with rem := v }
/-- `K <- v`. -/
def State.withK (s : State) (v : Nat) : State := { s with k := v }
/-- `NCH <- v`. -/
def State.withNch (s : State) (v : Nat) : State := { s with nch := v }
/-- `ACC <- v`. -/
def State.withAcc (s : State) (v : Len) : State := { s with acc := v }
/-- The host's moves to come are `l`. -/
def State.withInputs (s : State) (l : List HostInput) : State := { s with inputs := l }
/-- One more event on the record of the interface. -/
def State.pushLog (s : State) (e : Event) : State := { s with log := s.log ++ [e] }

/-- `CAP` of this instance. -/
def State.cap (s : State) : Nat := s.cfg.cap

/-! ## The scratch buffer -/

/-- The byte at an offset; none when no refill has written it (10_state R35). -/
def Memory.byteAt : Memory → Nat → Option Byte
  | [], _ => none
  | (x, b) :: m, a => if x = a then some b else Memory.byteAt m a

/-- Write one byte, keeping the offsets strictly rising. -/
def Memory.put : Memory → Nat → Byte → Memory
  | [], a, b => [(a, b)]
  | (x, y) :: m, a, b =>
    if a < x then (a, b) :: (x, y) :: m
    else if a = x then (a, b) :: m
    else (x, y) :: Memory.put m a b

/-- Write a run of bytes from an offset upwards. -/
def Memory.putBytes : Memory → Nat → List Byte → Memory
  | m, _, [] => m
  | m, off, b :: bs => Memory.putBytes (Memory.put m off b) (off + 1) bs

/-- The `n` bytes from `off` upwards; a fault at the first byte that is unknown (10_state R35). -/
def Memory.bytesFrom (m : Memory) (off : Nat) : Nat → Except Fault (List Byte)
  | 0 => .ok []
  | n + 1 =>
    match Memory.byteAt m off with
    | none => .error (.unknownByte off)
    | some b =>
      match Memory.bytesFrom m (off + 1) n with
      | .error f => .error f
      | .ok bs => .ok (b :: bs)

/-- `MemRead(off, n)`, defined only for `off + n <= CAP` (00_scope R13). -/
def memRead (cfg : Config) (m : Memory) (off n : Nat) : Except Fault (List Byte) :=
  if off + n ≤ cfg.cap then Memory.bytesFrom m off n else .error (.bufferRange off n)

/-- `bytes_LE(w)` (20_memory R38). -/
def bytesLE (w : Word) : List Byte :=
  [w.extractLsb' 0 8, w.extractLsb' 8 8, w.extractLsb' 16 8, w.extractLsb' 24 8,
   w.extractLsb' 32 8, w.extractLsb' 40 8, w.extractLsb' 48 8, w.extractLsb' 56 8]

/-- `bytes_BE(w)` (20_memory R38). -/
def bytesBE (w : Word) : List Byte :=
  [w.extractLsb' 56 8, w.extractLsb' 48 8, w.extractLsb' 40 8, w.extractLsb' 32 8,
   w.extractLsb' 24 8, w.extractLsb' 16 8, w.extractLsb' 8 8, w.extractLsb' 0 8]

/-- `bytes_BO(w)` (20_memory R38). -/
def bytesBO : ByteOrder → Word → List Byte
  | .le, w => bytesLE w
  | .be, w => bytesBE w

/-- `MemWrite(off, 8, w)`, defined only for `off + 8 <= CAP` (00_scope R13). -/
def memWrite (cfg : Config) (m : Memory) (off : Nat) (w : Word) : Except Fault Memory :=
  if off + 8 ≤ cfg.cap then .ok (Memory.putBytes m off (bytesBO cfg.byteOrder w)) else .error (.bufferRange off 8)

/-! ## The engine -/

/-- `MULT`, the output multiplier (00_scope R9, 40_engine R72). -/
def mult : Word := 1181783497276652981#64

/-- `S[i]`. -/
def GeneratorState.word (g : GeneratorState) (i : BitVec 4) : Word := g.S[i.toNat]'i.isLt

/-- `S[i] <- v`. -/
def GeneratorState.setWord (g : GeneratorState) (i : BitVec 4) (v : Word) : GeneratorState :=
  { g with S := g.S.set i.toNat v i.isLt }

/-- `ENGINE_STEP()`, line by line as 40_engine R70: the state after it and the word it returns. `p + 1` on the 4-bit
pointer is `(p + 1) & 15`. -/
def engineStep (g : GeneratorState) : GeneratorState × Word :=
  let s0  : Word := g.word g.p
  let g1  : GeneratorState := { g with p := g.p + 1#4 }
  let s1  : Word := g1.word g1.p
  let s1a : Word := s1 ^^^ (s1 <<< (31 : Nat))
  let s1b : Word := s1a ^^^ (s1a >>> (11 : Nat))
  let s0b : Word := s0 ^^^ (s0 >>> (30 : Nat))
  let g2  : GeneratorState := g1.setWord g1.p (s0b ^^^ s1b)
  (g2, g2.word g2.p * mult)

/-- `SEED_STATE()` on the block's engine (40_engine R68). -/
def State.seedEngine (s : State) : State := s.withGen GeneratorState.seed

/-! ## Responses and errors -/

/-- `Respond(status, result, count)`: the one response of the current command (30_encoding R62). -/
def State.respond (s : State) (st : Status) (result : Word) (count : Len) : State :=
  s.pushLog (.responded ⟨st, result, count⟩)

/-- The status an error is reported with (60_exceptions R105). -/
def BlockError.status : BlockError → Status
  | .unsupportedOperation => .unsupportedOperation
  | .illegalCommand       => .illegalCommand
  | .transferFault        => .transferFault

/-- `raise E(info)`: respond with the error's code and `info`, return to IDLE, change nothing else
(60_exceptions R106). -/
def State.raise (s : State) (e : BlockError) (info : Len) : State :=
  (s.respond e.status 0#64 info).withFsm .idle

/-! ## Reset -/

/-- The reset event (70_reset_and_hazards R125, R126): seed, exhaust the buffer, go IDLE, clear the counters.
BUF is not written and no response is emitted. -/
def State.takeReset (s : State) : State :=
  ((((((((s.pushLog (.resetTaken (decide (s.fsm ≠ .idle)))).seedEngine).withCur s.cap).withFsm .idle).withRem 0#56).withK 0).withNch 0).withAcc 0#56)

/-! ## The host's port -/

/-- A host that does nothing during a step. -/
def HostInput.quiet : HostInput := ⟨false, none, none⟩

/-- What the host drives during the next step; past the end of its moves it is quiet (log entry 2). -/
def State.hostInput (s : State) : HostInput := s.inputs.head?.getD HostInput.quiet

/-- The state once the host's move of this step is taken off its list. -/
def State.consumeInput (s : State) : State := s.withInputs s.inputs.tail

/-- The host presents the word `c` as its very next move. -/
def State.present (s : State) (c : Word) : State := s.withInputs (⟨false, some c, none⟩ :: s.inputs)

/-- The record that the word `c` was accepted. -/
def State.logAccepted (s : State) (c : Word) : State := s.pushLog (.accepted c)

end Sys2Proof.Machine
end

