-- ==== Sys2Proof/Machine/Flags.lean ====
section
/-! DEFINITION. The block has no condition flags and no persistent status flags (10_state R29). What stands in their
place: the derived ready indication, the status codes, and the packing of a response into two words. -/

namespace Sys2Proof.Machine

/-- `ready = (fsm = IDLE)`, derived and read-only (10_state R29). -/
def State.ready (s : State) : Bool := decide (s.fsm = .idle)

/-- The code of a status (30_encoding R63). -/
def Status.code : Status → BitVec 8
  | .ok                   => 0x00#8
  | .unsupportedOperation => 0x01#8
  | .illegalCommand       => 0x02#8
  | .transferFault        => 0x03#8

/-- `RESP0 = RESULT` (30_encoding R61). -/
def Response.resp0 (r : Response) : Word := r.result

/-- `RESP1`: STATUS in bits 63:56, COUNT in bits 55:0 (30_encoding R61). -/
def Response.resp1 (r : Response) : Word := r.status.code ++ r.count

/-- The answer bit `ANS`: 0 = ACK, 1 = FAULT (30_encoding R64). -/
def Answer.bit : Answer → BitVec 1
  | .ack   => 0#1
  | .fault => 1#1

end Sys2Proof.Machine
end

