-- ==== Sys2Proof/Machine/Operands.lean ====
section
/-! DEFINITION. The one operand of the block, READ's length (30_encoding R56), and the quantities the READ loop
computes from the registers (41_stream_buffer R83, R88). Counters are exact natural numbers (00_scope R12). -/

namespace Sys2Proof.Machine

/-- Load the READ operand: `REM <- c[55:0]` unchanged, and `ACC <- 0` (30_encoding R56, 41_stream_buffer R82). -/
def State.loadRead (s : State) (n : Len) : State := (s.withRem n).withAcc 0#56

/-- `min(REM, CAP − CUR)`, the length of the next chunk (41_stream_buffer R83). -/
def State.chunkLength (s : State) : Nat := min s.rem.toNat (s.cap - s.cur)

/-- `CUR <- CUR + m`, `REM <- REM − m`, `ACC <- ACC + m` (41_stream_buffer R81, R88). -/
def State.consumeBytes (s : State) (m : Nat) : State :=
  ((s.withCur (s.cur + m)).withRem (BitVec.ofNat 56 (s.rem.toNat - m))).withAcc (BitVec.ofNat 56 (s.acc.toNat + m))

/-- Consume the chunk on offer, `NCH` bytes (41_stream_buffer R88). -/
def State.consumeChunk (s : State) : State := s.consumeBytes s.nch

/-! ## The counters as the registers they are (00_scope R11, log entry 9) -/

/-- CUR at its width `CUR_W`. -/
def State.curReg (s : State) : BitVec s.cfg.curWidth := BitVec.ofNat s.cfg.curWidth s.cur

/-- NCH at its width `CUR_W`. -/
def State.nchReg (s : State) : BitVec s.cfg.curWidth := BitVec.ofNat s.cfg.curWidth s.nch

/-- K at its width `K_W`. -/
def State.kReg (s : State) : BitVec s.cfg.kWidth := BitVec.ofNat s.cfg.kWidth s.k

end Sys2Proof.Machine
end

