-- ==== Sys2Proof/Machine/Engine.lean ====
section
/-! DEFINITION. The engine family: SEED and NEXT (40_engine R69, R74), as executed in the step that accepts
the command. -/

namespace Sys2Proof.Machine

/-- `SEED`: seed the engine, discard the unread bytes (`CUR <- CAP`), respond (OK, 0, 0); `fsm` stays as it is
(40_engine R69). -/
def execSeed (s : State) : Result :=
  .next ((s.seedEngine.withCur s.cap).respond .ok 0#64 0#56)

/-- `NEXT`: one engine step, its word in RESULT; BUF and CUR unchanged (40_engine R74). -/
def execNext (s : State) : Result :=
  let r := engineStep s.gen
  .next ((s.withGen r.1).respond .ok r.2 0#56)

end Sys2Proof.Machine
end

