-- ==== Sys2Proof/Machine/Stream.lean ====
section
/-! DEFINITION. The stream family: READ's accept step and WRITE, the illegal command, and the FSM steps that carry a
READ out (41_stream_buffer R82 to R89, R98, 60_exceptions R107). -/

namespace Sys2Proof.Machine

/-- `READ n`, its accept step: `REM <- n; ACC <- 0; fsm <- READ_LOOP` (41_stream_buffer R82). -/
def execRead (n : Len) (s : State) : Result :=
  .next ((s.loadRead n).withFsm .readLoop)

/-- `WRITE`: `raise UNSUPPORTED_OPERATION(0)` (41_stream_buffer R98). -/
def execWrite (s : State) : Result :=
  .next (s.raise .unsupportedOperation 0#56)

/-- A word that decodes to ILLEGAL: `raise ILLEGAL_COMMAND(0)` (60_exceptions R107). -/
def execIllegal (s : State) : Result :=
  .next (s.raise .illegalCommand 0#56)

/-- The READ_LOOP step: the loop condition first, the exhaustion condition second (41_stream_buffer R83). -/
def readLoopStep (s : State) : Result :=
  if s.rem = 0#56 then .next ((s.respond .ok 0#64 s.acc).withFsm .idle)
  else if s.cur = s.cap then .next ((s.withK 0).withFsm .refill)
  else if s.cur < s.cap then .next ((s.withNch s.chunkLength).withFsm .xfer)
  else .fault (.noRow .readLoop)

/-- The REFILL step that writes one word (41_stream_buffer R85). -/
def refillWord (s : State) : Result :=
  let r := engineStep s.gen
  match memWrite s.cfg s.buf (8 * s.k) r.2 with
  | .error f => .fault f
  | .ok m => .next (((s.withGen r.1).withBuf m).withK (s.k + 1))

/-- The REFILL step (41_stream_buffer R85, R86). -/
def refillStep (s : State) : Result :=
  if s.k < s.cfg.capWords then refillWord s
  else if s.k = s.cfg.capWords then .next ((s.withCur 0).withFsm .readLoop)
  else .fault (.noRow .refill)

/-- The effect of the host's answer to the chunk `bs` (41_stream_buffer R88, R89). -/
def answerChunk (s : State) (bs : List Byte) : Answer → Result
  | .ack   => .next (((s.pushLog (.offered bs .ack)).consumeChunk).withFsm .readLoop)
  | .fault => .next ((s.pushLog (.offered bs .fault)).raise .transferFault s.acc)

/-- The XFER step together with the host's answer: offer `MemRead(CUR, NCH)` and take the answer
(41_stream_buffer R87). -/
def xferStep (s : State) (a : Answer) : Result :=
  if 1 ≤ s.nch ∧ s.nch ≤ s.rem.toNat then
    match memRead s.cfg s.buf s.cur s.nch with
    | .error f => .fault f
    | .ok bs => answerChunk s bs a
  else .fault (.noRow .xfer)

end Sys2Proof.Machine
end

