-- ==== Sys2Proof/Machine/Dispatch.lean ====
section
/-! DEFINITION. One arm per command of spec/opcode_table.json, each one direct call of its meaning. -/

namespace Sys2Proof.Machine

def exec (i : Instr) (s : State) : Host.Outcome State Fault Refusal :=
  match i with
  | .seed => Sys2Proof.Machine.execSeed s
  | .next => Sys2Proof.Machine.execNext s
  | .read n => Sys2Proof.Machine.execRead n s
  | .write => Sys2Proof.Machine.execWrite s

end Sys2Proof.Machine
end

