-- ==== Sys2Proof/Machine/Transition.lean ====
section
/-! DEFINITION. The transition relation of the block (41_stream_buffer R84) as one function of the host's move and
the state: reset first (60_exceptions R113), then the row of the current `fsm`. -/

namespace Sys2Proof.Machine

/-- The accept step: record the accepted word and run what it decodes to (41_stream_buffer R82). -/
def accept (c : Word) (s : State) : Result :=
  match decode c with
  | .instr i => exec i (s.logAccepted c)
  | .illegal _ => execIllegal (s.logAccepted c)

/-- The row of R84 for the current `fsm`. With no word in IDLE, or no answer in XFER, the block has no step and its
state stays (log entry 6). -/
def fsmStep (i : HostInput) (s : State) : Result :=
  match s.fsm with
  | .idle =>
    match i.word with
    | none => .next s
    | some c => accept c s
  | .readLoop => readLoopStep s
  | .refill => refillStep s
  | .xfer =>
    match i.ans with
    | none => .next s
    | some a => xferStep s a

/-- One step of the block under the host's move `i`: reset takes precedence over every other event
(60_exceptions R113). -/
def blockStep (i : HostInput) (s : State) : Result :=
  if i.reset then .next s.takeReset else fsmStep i s

end Sys2Proof.Machine
end

