-- ==== Sys2Proof/Machine/Step.lean ====
section
/-! DEFINITION. The step function: take the host's next move off its list and make one step of the block. -/

namespace Sys2Proof.Machine

/-- One step of the machine. -/
def step (s : State) : Host.Outcome State Fault Refusal :=
  blockStep s.hostInput s.consumeInput

/-- `s` with the block in IDLE and the host presenting the given word as its very next move, which is where the block
takes its next command from (10_state R24, log entry 3). -/
def State.withFetchWord (s : State) (nbits w : Nat) : State :=
  (s.present (portWord nbits w)).withFsm .idle

end Sys2Proof.Machine
end

