-- ==== Sys2Proof/Asm.lean ====
section
/-! DEFINITION. Assembler lines as data (30_encoding R66): what a programmer writes, before the assembler has checked
it. Machine/Assembler.lean reads lines from text and assembles them. -/

namespace Sys2Proof

/-- The mnemonics of an assembler line (30_encoding R66). -/
inductive AsmOp where
  | seed
  | next
  | read
  | write
  /-- `.cmd`, a raw word. -/
  | cmd
  deriving DecidableEq, Repr

/-- A mnemonic and the numbers written after it. -/
structure AsmLine where
  op       : AsmOp
  operands : List Nat
  deriving DecidableEq, Repr

end Sys2Proof
end

