-- ==== Sys2Proof/WellFormed.lean ====
section
/-! DEFINITION. What the types leave to be checked. A command (`Instr`) needs no check: its one operand has the
56 bits of the LEN field by its type, and a length of 2^56 or more cannot be written (93_implementation_defined U17).
An assembler line and a configuration do. -/

namespace Sys2Proof

/-- `CAP_WORDS` is any integer ≥ 1 (00_scope R10). -/
def Config.wf (c : Config) : Bool := decide (1 ≤ c.capWords)

/-- The assembler's checks (30_encoding R66): no operands on SEED and NEXT, one operand of READ in 0..2^56−1, none
or one of WRITE, and one raw 64-bit word after `.cmd`. -/
def AsmLine.wf (l : AsmLine) : Bool :=
  match l.op, l.operands with
  | .seed,  []  => true
  | .next,  []  => true
  | .read,  [n] => decide (n < 2 ^ 56)
  | .write, []  => true
  | .write, [_] => true
  | .cmd,   [w] => decide (w < 2 ^ 64)
  | _,      _   => false

end Sys2Proof
end

