-- ==== Sys2Proof/Machine/Assembler.lean ====
section
/-! DEFINITION. The assembler of 30_encoding R66: one command per line, from text to a line, and from a checked
line to the command word. -/

namespace Sys2Proof.Machine

/-- The LEN bits of `WRITE n`: `zext_56(n)`, and a free value where n does not fit 56 bits (log entry 10). -/
def writeLen (n : Nat) : Len := if n < 2 ^ 56 then BitVec.ofNat 56 n else Config.overlongLen n

/-- The word a line encodes; none for a line the assembler refuses (30_encoding R66). -/
def assemble (l : AsmLine) : Option Word :=
  if l.wf then
    match l.op, l.operands with
    | .seed,  _   => some (encode .seed)
    | .next,  _   => some (encode .next)
    | .read,  [n] => some (encode (.read (BitVec.ofNat 56 n)))
    | .write, [n] => some (commandWord 0x04#8 (writeLen n))
    | .write, _   => some (encode .write)
    | .cmd,   [w] => some (BitVec.ofNat 64 w)
    | _,      _   => none
  else none

/-! ## Reading a line of text -/

/-- The line without its comment: a `;` starts a comment that runs to the end of the line. -/
def stripComment (cs : List Char) : List Char := cs.takeWhile (fun c => c ≠ ';')

/-- Spaces and tabs separate the parts of a line (log entry 11). -/
def isBlank (c : Char) : Bool := c = ' ' || c = '\t'

/-- The parts of a line; `cur` is the part being read, last character first. -/
def splitParts : List Char → List Char → List (List Char)
  | [], cur => if cur.isEmpty then [] else [cur.reverse]
  | c :: cs, cur =>
    if isBlank c then
      if cur.isEmpty then splitParts cs [] else cur.reverse :: splitParts cs []
    else splitParts cs (c :: cur)

/-- The value of a digit of the given base. -/
def digitValue (base : Nat) (c : Char) : Option Nat :=
  let v :=
    if '0' ≤ c ∧ c ≤ '9' then c.toNat - 48
    else if 'a' ≤ c ∧ c ≤ 'f' then c.toNat - 87
    else if 'A' ≤ c ∧ c ≤ 'F' then c.toNat - 55
    else base
  if v < base then some v else none

/-- The value of a run of digits, the first the most significant, on top of `v`. -/
def digitsValue (base : Nat) : List Char → Nat → Option Nat
  | [], v => some v
  | c :: cs, v =>
    match digitValue base c with
    | none => none
    | some d => digitsValue base cs (base * v + d)

/-- A number in decimal or `0x` hex (30_encoding R66). -/
def parseNumber : List Char → Option Nat
  | [] => none
  | '0' :: 'x' :: d :: ds => digitsValue 16 (d :: ds) 0
  | ds => digitsValue 10 ds 0

/-- The raw word of `.cmd`: `0x` and exactly 16 hex digits (30_encoding R66, log entry 11). -/
def parseRaw : List Char → Option Nat
  | '0' :: 'x' :: ds => if ds.length = 16 then digitsValue 16 ds 0 else none
  | _ => none

/-- The mnemonics, in upper case (30_encoding R66). -/
def parseOp (cs : List Char) : Option AsmOp :=
  if cs = ['S', 'E', 'E', 'D'] then some .seed
  else if cs = ['N', 'E', 'X', 'T'] then some .next
  else if cs = ['R', 'E', 'A', 'D'] then some .read
  else if cs = ['W', 'R', 'I', 'T', 'E'] then some .write
  else if cs = ['.', 'c', 'm', 'd'] then some .cmd
  else none

/-- What a line of text is. -/
inductive ParsedLine where
  /-- Nothing but blanks and a comment. -/
  | blank
  | line (l : AsmLine)
  | refused
  deriving DecidableEq, Repr

/-- The numbers after the mnemonic; none if one of them is not a number. -/
def parseOperands (op : AsmOp) : List (List Char) → Option (List Nat)
  | [] => some []
  | p :: ps =>
    match (if op = .cmd then parseRaw p else parseNumber p), parseOperands op ps with
    | some n, some ns => some (n :: ns)
    | _, _ => none

/-- Read one line of text (30_encoding R66). -/
def parseLine (cs : List Char) : ParsedLine :=
  match splitParts (stripComment cs) [] with
  | [] => .blank
  | p :: ps =>
    match parseOp p with
    | none => .refused
    | some op =>
      match parseOperands op ps with
      | none => .refused
      | some ns => if (AsmLine.mk op ns).wf then .line ⟨op, ns⟩ else .refused

end Sys2Proof.Machine
end

