-- ==== Sys2Proof/Machine/Algorithm.lean ====
section
/-! DEFINITION. READ as one whole-command algorithm (41_stream_buffer R81), the reference meaning of the FSM
steps. It uses the block's registers but not the FSM's own counters K and NCH, and takes the host's answers as a list. -/

namespace Sys2Proof.Machine

/-- How the loop of R81 ends. -/
inductive ReadOutcome where
  /-- The READ has responded, with OK or TRANSFER_FAULT. -/
  | responded (s : State)
  /-- A chunk is on offer and the host has given no answer yet. -/
  | waiting (s : State)
  /-- A buffer access stopped the loop. -/
  | stopped (f : Fault)
  /-- The fuel ran out; the fuel `readAlgorithm` gives suffices in every state that meets the invariant. -/
  | outOfFuel
  deriving DecidableEq, Repr

/-- `for k in ...: MemWrite(8*k, 8, ENGINE_STEP())`, `n` words from word `k` on. -/
def refillWords : Nat → Nat → State → Except Fault State
  | 0, _, s => .ok s
  | n + 1, k, s =>
    let r := engineStep s.gen
    match memWrite s.cfg s.buf (8 * k) r.2 with
    | .error f => .error f
    | .ok m => refillWords n (k + 1) ((s.withGen r.1).withBuf m)

/-- The while loop of R81. -/
def readWhile : Nat → List Answer → State → ReadOutcome
  | 0, _, _ => .outOfFuel
  | fuel + 1, answers, s =>
    if s.rem = 0#56 then .responded ((s.respond .ok 0#64 s.acc).withFsm .idle)
    else if s.cur = s.cap then
      match refillWords s.cfg.capWords 0 s with
      | .error f => .stopped f
      | .ok s' => readWhile fuel answers (s'.withCur 0)
    else
      match memRead s.cfg s.buf s.cur s.chunkLength with
      | .error f => .stopped f
      | .ok bs =>
        match answers with
        | [] => .waiting s
        | .fault :: _ => .responded ((s.pushLog (.offered bs .fault)).raise .transferFault s.acc)
        | .ack :: rest => readWhile fuel rest ((s.pushLog (.offered bs .ack)).consumeBytes s.chunkLength)

/-- `READ(n)` of R81. Each refill is followed by a chunk and each chunk takes at least one byte, so `2n + 2`
iterations are enough. -/
def readAlgorithm (n : Len) (answers : List Answer) (s : State) : ReadOutcome :=
  readWhile (2 * n.toNat + 2) answers (s.loadRead n)

end Sys2Proof.Machine
end

