-- ==== Sys2Proof/Machine/Observe.lean ====
section
/-! DEFINITION. What the host sees of the block (10_state R32): the chunk on offer, and, read off the record of the
interface, the words accepted, the responses and the bytes delivered. -/

namespace Sys2Proof.Machine

/-- The chunk on offer while `fsm = XFER` (30_encoding R64); none in the other FSM states. -/
def State.chunkOnOffer (s : State) : Option (Except Fault (List Byte)) :=
  if s.fsm = .xfer then some (memRead s.cfg s.buf s.cur s.nch) else none

/-- The word an event records as accepted. -/
def Event.acceptedWord? : Event → Option Word
  | .accepted c => some c
  | _ => none

/-- The response an event records. -/
def Event.response? : Event → Option Response
  | .responded r => some r
  | _ => none

/-- The answer an event records. -/
def Event.answer? : Event → Option Answer
  | .offered _ a => some a
  | _ => none

/-- Whether an event is the acceptance of the command `i`. -/
def Event.accepts (i : Instr) : Event → Bool
  | .accepted c => decide (decode c = .instr i)
  | _ => false

/-- Whether an event is a reset. -/
def Event.isReset : Event → Bool
  | .resetTaken _ => true
  | _ => false

/-- The bytes an event delivered: those of an acknowledged chunk (41_stream_buffer R94). -/
def Event.ackedBytes : Event → List Byte
  | .offered bs .ack => bs
  | _ => []

/-- Whether an event is a reset that aborted a command (70_reset_and_hazards R126). -/
def Event.isAbort : Event → Bool
  | .resetTaken b => b
  | _ => false

/-- The words accepted in a stretch of the record, in order. -/
def acceptedWords (l : List Event) : List Word := l.filterMap Event.acceptedWord?

/-- The responses in a stretch of the record, in order. -/
def responsesIn (l : List Event) : List Response := l.filterMap Event.response?

/-- The answers to the chunk offers in a stretch of the record, in order. -/
def answersIn (l : List Event) : List Answer := l.filterMap Event.answer?

/-- The bytes delivered to the caller in a stretch of the record, in order. -/
def deliveredIn (l : List Event) : List Byte := l.flatMap Event.ackedBytes

/-- How often the command `i` was accepted in a stretch of the record. -/
def acceptsOf (i : Instr) (l : List Event) : Nat := l.countP (Event.accepts i)

/-- The number of resets in a stretch of the record. -/
def resetsIn (l : List Event) : Nat := l.countP Event.isReset

/-- The RESULT fields of the responses to NEXT in a stretch of the record, in order; `afterNext` says that the last word
accepted before it was NEXT and has not been answered. -/
def nextResultsFrom : Bool → List Event → List Word
  | _, [] => []
  | _, .accepted c :: l => nextResultsFrom (decide (decode c = .instr .next)) l
  | afterNext, .responded r :: l =>
    if afterNext then r.result :: nextResultsFrom false l else nextResultsFrom false l
  | afterNext, .offered _ _ :: l => nextResultsFrom afterNext l
  | _, .resetTaken _ :: l => nextResultsFrom false l

/-- The RESULT fields of the responses to NEXT in a stretch of the record that begins between commands or in a READ. -/
def nextResultsIn (l : List Event) : List Word := nextResultsFrom false l

end Sys2Proof.Machine
end

