-- ==== Sys2Proof/Safety.lean ====
section
/-! DEFINITION. What the claims speak of: the invariant of the block, runs, the host that acknowledges every chunk, the
counts of 41_stream_buffer R97 and R102, and the byte stream of R95. -/

namespace Sys2Proof.Machine

/-- The engine words are not all zero (10_state R19). -/
def GeneratorState.NonZero (g : GeneratorState) : Prop := ∃ i : BitVec 4, g.word i ≠ 0#64

/-- The bytes `lo .. hi-1` of BUF were written by a refill. -/
def Memory.Known (m : Memory) (lo hi : Nat) : Prop :=
  ∀ a, lo ≤ a → a < hi → (Memory.byteAt m a).isSome

/-- The invariant of the block: the ranges of 10_state R16, R21, R26 and R27, buffer validity (R22), the sum of ACC and
REM within 56 bits (R28), and the state words not all zero (R19). -/
structure State.Inv (s : State) : Prop where
  cfgWf     : s.cfg.wf = true
  bufWf     : Memory.wf s.buf
  bufWithin : Memory.within s.buf s.cap
  nonZero   : s.gen.NonZero
  curLe     : s.cur ≤ s.cap
  kLe       : s.k ≤ s.cfg.capWords
  nchLe     : s.nch ≤ s.cap
  sumLt     : s.fsm ≠ .idle → s.acc.toNat + s.rem.toNat < 2 ^ 56
  known     : Memory.Known s.buf s.cur s.cap
  refill    : s.fsm = .refill → s.cur = s.cap ∧ s.rem ≠ 0#56 ∧ Memory.Known s.buf 0 (8 * s.k)
  xfer      : s.fsm = .xfer → 1 ≤ s.nch ∧ s.nch = s.chunkLength

/-- Every byte of BUF reads as before. -/
def SameBytes (s t : State) : Prop := ∀ a, Memory.byteAt t.buf a = Memory.byteAt s.buf a

/-- The chunk `bs` is the `NCH` bytes of BUF from CUR on, in buffer order (30_encoding R64). -/
def State.IsChunk (s : State) (bs : List Byte) : Prop :=
  bs.length = s.nch ∧ ∀ j, j < s.nch → bs[j]? = Memory.byteAt s.buf (s.cur + j)

/-- Which byte of a word, counted from the least significant, stands at place `j` of its 8 (20_memory R38). -/
def byteLane : ByteOrder → Nat → Nat
  | .le, j => j
  | .be, j => 7 - j

/-- `s` with another record of the interface. -/
def State.withLog (s : State) (l : List Event) : State := { s with log := l }

/-- Two states agree on everything but the FSM's own counters K and NCH and the host's moves to come. -/
def State.SameRead (s t : State) : Prop :=
  s.cfg = t.cfg ∧ s.gen = t.gen ∧ s.buf = t.buf ∧ s.cur = t.cur ∧ s.fsm = t.fsm ∧ s.rem = t.rem ∧ s.acc = t.acc
    ∧ s.log = t.log

/-- The number of commands in progress: one while `fsm ≠ IDLE`, none in IDLE. -/
def State.pending (s : State) : Nat := if s.fsm = .idle then 0 else 1

/-- The number of commands aborted by reset in a stretch of the record. -/
def abortsIn (l : List Event) : Nat := l.countP Event.isAbort

/-- Each word accepted has had its one response, has been aborted by reset, or is the one in progress
(30_encoding R62, 70_reset_and_hazards R133). -/
def State.Balanced (s : State) : Prop :=
  (acceptedWords s.log).length = (responsesIn s.log).length + abortsIn s.log + s.pending

/-- `n` steps of the machine. -/
def run (n : Nat) (s : State) : Result := Host.Core.run Sys2Proof.core n s

/-- None of the next `n` moves of the host asserts reset. -/
def State.NoReset (s : State) (n : Nat) : Prop := ∀ i ∈ s.inputs.take n, i.reset = false

/-- During the next `n` steps the host answers ACK in every step in which a chunk is on offer, so the block never waits. -/
def State.AcksEveryOffer (s : State) (n : Nat) : Prop :=
  ∀ j u, j < n → run j s = .next u → u.fsm = .xfer → u.hostInput.ans = some .ack

/-- The host presents `c` and then acknowledges every chunk, `n` moves in all. -/
def ackMoves (c : Word) (n : Nat) : List HostInput :=
  ⟨false, some c, none⟩ :: List.replicate (n - 1) ⟨false, none, some .ack⟩

/-- The number of refills of a READ of `n` bytes that starts with `CUR = c` (41_stream_buffer R97). -/
def refillCount (cap c n : Nat) : Nat :=
  if n ≤ cap - c then 0 else (n - (cap - c) + cap - 1) / cap

/-- The number of its chunk offers (41_stream_buffer R97). -/
def offerCount (cap c n : Nat) : Nat :=
  refillCount cap c n + (if c < cap ∧ 0 < n then 1 else 0)

/-- The number of its block steps (41_stream_buffer R102). -/
def readSteps (cfg : Config) (c n : Nat) : Nat :=
  1 + (refillCount cfg.cap c n + offerCount cfg.cap c n + 1)
    + refillCount cfg.cap c n * (cfg.capWords + 1) + offerCount cfg.cap c n

/-- A READ of `n` bytes from `s` under the host that acknowledges every chunk, for the number of steps R102 gives. -/
def ackedRead (n : Len) (s : State) : Result :=
  run (readSteps s.cfg s.cur n.toNat)
    (s.withInputs (ackMoves (encode (.read n)) (readSteps s.cfg s.cur n.toNat)))

/-- Several such READs, one after the other. -/
def ackedReads : List Len → State → Result
  | [], s => .next s
  | n :: ns, s =>
    match ackedRead n s with
    | .next t => ackedReads ns t
    | .fault f => .fault f
    | .refused r => .refused r

/-- The engine after `n` steps. -/
def engineAfter : Nat → GeneratorState → GeneratorState
  | 0, g => g
  | n + 1, g => engineAfter n (engineStep g).1

/-- The bytes of the next `n` engine outputs, in buffer order (20_memory R40, 41_stream_buffer R95). -/
def streamBytes (bo : ByteOrder) : Nat → GeneratorState → List Byte
  | 0, _ => []
  | n + 1, g => bytesBO bo (engineStep g).2 ++ streamBytes bo n (engineStep g).1

/-! ## The stream as a queue (41_stream_buffer R95, 70_reset_and_hazards R132) -/

/-- Where the bytes lie that refills have written and nobody has been served: offset and number. During a refill they are the
words written so far; otherwise the bytes from CUR on. -/
def State.unreadSpan (s : State) : Nat × Nat :=
  if s.fsm = .refill then (0, 8 * s.k) else (s.cur, s.cap - s.cur)

/-- `q` is the unread bytes, in buffer order. -/
def State.IsUnread (s : State) (q : List Byte) : Prop :=
  q.length = s.unreadSpan.2 ∧ ∀ j, j < s.unreadSpan.2 → q[j]? = Memory.byteAt s.buf (s.unreadSpan.1 + j)

/-- What can happen to the engine's outputs. -/
inductive StreamAction where
  /-- A refill takes the next output. -/
  | produce
  /-- A NEXT takes the next output. -/
  | next
  /-- SEED or reset: back to the seed, the unread bytes are discarded. -/
  | restart
  /-- `n` bytes are acknowledged. -/
  | serve (n : Nat)
  deriving DecidableEq, Repr

/-- The stream without buffer, cursor or FSM: the engine, the bytes produced and not yet served, the bytes served, and the
outputs NEXT has returned. -/
structure StreamQueue where
  gen     : GeneratorState
  queue   : List Byte
  served  : List Byte
  results : List Word
  deriving DecidableEq, Repr

/-- The effect of an action on the queue. -/
def StreamQueue.act (bo : ByteOrder) (m : StreamQueue) : StreamAction → StreamQueue
  | .produce => { m with gen := (engineStep m.gen).1, queue := m.queue ++ bytesBO bo (engineStep m.gen).2 }
  | .next    => { m with gen := (engineStep m.gen).1, results := m.results ++ [(engineStep m.gen).2] }
  | .restart => { m with gen := GeneratorState.seed, queue := [] }
  | .serve n => { m with queue := m.queue.drop n, served := m.served ++ m.queue.take n }

/-- The effect of several actions, in order. -/
def StreamQueue.acts (bo : ByteOrder) (m : StreamQueue) (l : List StreamAction) : StreamQueue :=
  l.foldl (StreamQueue.act bo) m

/-- The next step discards the past: reset is asserted, or SEED is accepted. -/
def State.Restarts (s : State) : Prop :=
  s.hostInput.reset = true ∨ (s.fsm = .idle ∧ ∃ c a, s.hostInput = ⟨false, some c, a⟩ ∧ decode c = .instr .seed)

/-- Two states agree on everything that means something in their FSM state: REM and ACC only while a READ is in progress, K only in
REFILL, NCH only in XFER (10_state R25 to R28). -/
structure State.SameMeaning (s t : State) : Prop where
  gen : s.gen = t.gen
  cur : s.cur = t.cur
  fsm : s.fsm = t.fsm
  rem : s.fsm ≠ .idle → s.rem = t.rem
  acc : s.fsm ≠ .idle → s.acc = t.acc
  k   : s.fsm = .refill → s.k = t.k
  nch : s.fsm = .xfer → s.nch = t.nch

end Sys2Proof.Machine
end

