-- ==== Sys2Proof/Certificates/Slice0/Obligations.lean ====
section
/-! DEFINITION. The statements for the provers, each from the rules of spec/ its docstring names. -/

open Sys2Proof Sys2Proof.Machine

/-! ## Encoding -/

/-- 95_test_vectors V-D: what a few of the spec's own words decode to. -/
def Obligations.SpecWordsDecode : Prop :=
  decode 0x0100000000000000#64 = .instr .seed ∧
  decode 0x0200000000000000#64 = .instr .next ∧
  decode 0x0300000000000401#64 = .instr (.read 1025#56) ∧
  decode 0x03FFFFFFFFFFFFFF#64 = .instr (.read 0xFFFFFFFFFFFFFF#56) ∧
  decode 0x04FFFFFFFFFFFFFF#64 = .instr .write ∧
  (decode 0x0000000000000000#64).instr? = none ∧
  (decode 0x0180000000000000#64).instr? = none ∧
  (decode 0x0500000000000000#64).instr? = none

/-- 30_encoding R57, R66: decoding the word of a command gives the command back, for every command and every READ
length. -/
def Obligations.DecodeInvertsEncode : Prop :=
  ∀ i : Instr, decode (encode i) = .instr i

/-- 30_encoding R57, R60: the other direction. A word that decodes to a command is that command's word, but for the LEN
bits that WRITE ignores. -/
def Obligations.EncodeInvertsDecode : Prop :=
  ∀ (c : Word) (i : Instr), decode c = .instr i →
    (i ≠ .write → encode i = c) ∧ (i = .write → c.toNat / 2 ^ 56 = 4)

/-- 30_encoding R57: the class of every word by its OP and LEN, read as numbers, and the rows of the opcode table it
matches: exactly one row for a command, that command's, and none for an ILLEGAL word. -/
def Obligations.DecodeClassesAndTableRows : Prop :=
  ∀ c : Word,
    (c.toNat / 2 ^ 56 = 1 → c.toNat % 2 ^ 56 = 0 → decode c = .instr .seed) ∧
    (c.toNat / 2 ^ 56 = 2 → c.toNat % 2 ^ 56 = 0 → decode c = .instr .next) ∧
    (c.toNat / 2 ^ 56 = 3 → decode c = .instr (.read (BitVec.ofNat 56 (c.toNat % 2 ^ 56)))) ∧
    (c.toNat / 2 ^ 56 = 4 → decode c = .instr .write) ∧
    ((c.toNat / 2 ^ 56 = 0 ∨ 5 ≤ c.toNat / 2 ^ 56 ∨
        (c.toNat / 2 ^ 56 = 1 ∨ c.toNat / 2 ^ 56 = 2) ∧ c.toNat % 2 ^ 56 ≠ 0) →
      (decode c).instr? = none) ∧
    (∀ i, decode c = .instr i → ∃ r, matchingRows c = [r] ∧ r.mnemonic = i.mnemonic) ∧
    (∀ x, decode c = .illegal x → matchingRows c = [])

/-- 60_exceptions R107, 30_encoding R58, R59: a word with a reserved OP, or SEED or NEXT with LEN ≠ 0, is no command;
presented in IDLE it is answered (ILLEGAL_COMMAND, 0, 0) and changes no element of the block's state. -/
def Obligations.IllegalCommandChangesNothing : Prop :=
  ∀ (s : State) (c : Word) (a : Option Answer), s.fsm = .idle → s.hostInput = ⟨false, some c, a⟩ →
    (c.toNat / 2 ^ 56 = 0 ∨ 5 ≤ c.toNat / 2 ^ 56 ∨
      (c.toNat / 2 ^ 56 = 1 ∨ c.toNat / 2 ^ 56 = 2) ∧ c.toNat % 2 ^ 56 ≠ 0) →
    (decode c).instr? = none ∧ ∃ t, step s = .next t ∧
      t.log = s.log ++ [.accepted c, .responded ⟨.illegalCommand, 0#64, 0#56⟩] ∧
      t.inputs = s.inputs.tail ∧ t.cfg = s.cfg ∧ t.gen = s.gen ∧ SameBytes s t ∧ t.cur = s.cur ∧ t.fsm = .idle ∧
      t.rem = s.rem ∧ t.k = s.k ∧ t.nch = s.nch ∧ t.acc = s.acc

/-- 30_encoding R61, R63: a response packs into two words, and its code is one of the four the table gives; the reserved
codes 0x04..0xFF are never produced. -/
def Obligations.ResponseWords : Prop :=
  ∀ r : Response,
    r.resp0 = r.result ∧ r.resp1.toNat = r.status.code.toNat * 2 ^ 56 + r.count.toNat ∧
    r.resp1.toNat / 2 ^ 56 =
      (match r.status with | .ok => 0 | .unsupportedOperation => 1 | .illegalCommand => 2 | .transferFault => 3)

/-- 30_encoding R66: the assembler makes of a well-formed line a word that decodes to the line's command (any raw word for
`.cmd`), and refuses a line that is not well-formed. -/
def Obligations.AssembledLinesDecode : Prop :=
  ∀ l : AsmLine,
    (l.wf = false → assemble l = none) ∧
    (l.wf = true → ∃ w, assemble l = some w ∧
      match l.op with
      | .seed => w = 0x0100000000000000#64 ∧ decode w = .instr .seed
      | .next => w = 0x0200000000000000#64 ∧ decode w = .instr .next
      | .read => ∃ n, l.operands = [n] ∧ w.toNat = 3 * 2 ^ 56 + n ∧ decode w = .instr (.read (BitVec.ofNat 56 n))
      | .write => decode w = .instr .write ∧
          (l.operands = [] → w = 0x0400000000000000#64) ∧
          (∀ n, l.operands = [n] → n < 2 ^ 56 → w.toNat = 4 * 2 ^ 56 + n)
      | .cmd => l.operands = [w.toNat])

/-! ## The engine -/

/-- 40_engine R70, R76: the written word, the pointer and the output of one engine step, as R76's one expression over
the words at the old and the new pointer. The step writes one word and the pointer. -/
def Obligations.EngineStepResult : Prop :=
  ∀ (g : GeneratorState) (s0 s1 s1a new : Word),
    s0 = g.word g.p → s1 = g.word (g.p + 1#4) → s1a = s1 ^^^ (s1 <<< 31) →
    new = s1a ^^^ (s1a >>> 11) ^^^ s0 ^^^ (s0 >>> 30) →
    (engineStep g).1.word (g.p + 1#4) = new ∧
    (engineStep g).1.p.toNat = (g.p.toNat + 1) % 16 ∧
    (engineStep g).2.toNat = (new.toNat * 1181783497276652981) % 2 ^ 64 ∧
    ∀ i, i ≠ g.p + 1#4 → (engineStep g).1.word i = g.word i

/-- 40_engine R71: the step writes only the word at the new pointer. The word at the old pointer is not written,
the other 14 words are untouched, and they have no part in the result: two states with the same pointer and the same words at
the old and the new pointer write the same word and give the same output. -/
def Obligations.EngineStepTouchesOneWord : Prop :=
  (∀ (g : GeneratorState) (i : BitVec 4),
    (i ≠ g.p + 1#4 → (engineStep g).1.word i = g.word i) ∧ (engineStep g).1.word g.p = g.word g.p) ∧
  (∀ g h : GeneratorState, h.p = g.p → h.word g.p = g.word g.p → h.word (g.p + 1#4) = g.word (g.p + 1#4) →
    (engineStep h).1.word (g.p + 1#4) = (engineStep g).1.word (g.p + 1#4) ∧ (engineStep h).2 = (engineStep g).2)

/-- 40_engine R73, R80: the zero cases of the step. The output is 0 exactly when the written word is 0; two zero words give
0; the all-zero state stays all zero and gives 0; and the output can be 0 while other words are not. -/
def Obligations.EngineStepZeroCases : Prop :=
  (∀ g : GeneratorState, (engineStep g).2 = 0#64 ↔ (engineStep g).1.word (g.p + 1#4) = 0#64) ∧
  (∀ g : GeneratorState, g.word g.p = 0#64 → g.word (g.p + 1#4) = 0#64 →
    (engineStep g).1.word (g.p + 1#4) = 0#64 ∧ (engineStep g).2 = 0#64) ∧
  (∀ g : GeneratorState, (∀ i, g.word i = 0#64) →
    (engineStep g).2 = 0#64 ∧ ∀ i, (engineStep g).1.word i = 0#64) ∧
  (∃ g : GeneratorState, (engineStep g).2 = 0#64 ∧ (engineStep g).1.NonZero)

/-- 40_engine R75: the multiply keeps the low 64 bits of the product, and multiplying by MULT is a bijection. -/
def Obligations.MultiplierIsBijection : Prop :=
  (∀ x : Word, (x * mult).toNat = (x.toNat * 1181783497276652981) % 2 ^ 64) ∧
  Function.Bijective (fun x : Word => x * mult)

/-- 40_engine R79: the pointer wraps from 15 to 0 (the step reads S[15] and S[0] and writes S[0]), comes back after 16
steps from any state, and is n mod 16 after n steps from the seed. -/
def Obligations.PointerWrapsEverySixteenSteps : Prop :=
  (∀ g : GeneratorState, g.p = 15#4 →
    (engineStep g).1.p = 0#4 ∧
    (engineStep g).1.word 0#4 =
      (g.word 0#4 ^^^ (g.word 0#4 <<< 31)) ^^^ ((g.word 0#4 ^^^ (g.word 0#4 <<< 31)) >>> 11)
        ^^^ g.word 15#4 ^^^ (g.word 15#4 >>> 30)) ∧
  (∀ g : GeneratorState, (engineAfter 16 g).p = g.p) ∧
  (∀ n : Nat, (engineAfter n GeneratorState.seed).p.toNat = n % 16)

/-- 10_state R19: the sequence is never all-zero after seeding. The seed is not all zero, and no step of the machine,
whatever the host does, makes a state that is not all zero into one that is. -/
def Obligations.EngineNeverAllZero : Prop :=
  (∀ cfg : Config, (State.resetOf cfg).gen.NonZero) ∧
  (∀ s t : State, s.gen.NonZero → step s = .next t → t.gen.NonZero)

/-- 20_memory R38: bytes_LE puts bits 7:0 first, bytes_BE bits 63:56. -/
def Obligations.BytesOfAWord : Prop :=
  ∀ w : Word,
    (bytesBO .le w).length = 8 ∧ (bytesBO .be w).length = 8 ∧
    (∀ j, j < 8 → (bytesBO .le w)[j]? = some (BitVec.ofNat 8 (w.toNat / 2 ^ (8 * j)))) ∧
    (∀ j, j < 8 → (bytesBO .be w)[j]? = some (BitVec.ofNat 8 (w.toNat / 2 ^ (8 * (7 - j)))))

/-! ## The commands -/

/-- 10_state R24, 30_encoding R54, 41_stream_buffer R82: when the block is in IDLE and the word the host presents decodes
to a command, the step is that command's exec, on the state with the host's move taken and the word recorded as
accepted. -/
def Obligations.StepRunsDecodedCommand : Prop :=
  ∀ (s : State) (c : Word) (a : Option Answer) (i : Instr), s.fsm = .idle → s.hostInput = ⟨false, some c, a⟩ →
    decode c = .instr i → step s = exec i (s.consumeInput.logAccepted c)

/-- 40_engine R68, R69: SEED completes in every state; that it does so outside IDLE too is the model's choice (log entry 16). It leaves S[i] = i + 1, p = 0, CUR = CAP, responds (OK, 0, 0), and
changes nothing else; right after reset it changes nothing at all; a NEXT after it returns 0xC0562E31B467F91F; a word with
OP 0x01 and LEN ≠ 0 is not SEED and raises ILLEGAL_COMMAND. -/
def Obligations.SeedCommand : Prop :=
  (∀ s : State, ∃ t, exec .seed s = .next t ∧
    (∀ i : BitVec 4, (t.gen.word i).toNat = i.toNat + 1) ∧ t.gen.p = 0#4 ∧ t.cur = s.cap ∧
    t.log = s.log ++ [.responded ⟨.ok, 0#64, 0#56⟩] ∧
    t.cfg = s.cfg ∧ SameBytes s t ∧ t.fsm = s.fsm ∧ t.rem = s.rem ∧ t.k = s.k ∧ t.nch = s.nch ∧ t.acc = s.acc ∧
    t.inputs = s.inputs) ∧
  (∀ (cfg : Config) (t : State), exec .seed (State.resetOf cfg) = .next t →
    t.withLog [] = State.resetOf cfg) ∧
  (∀ s t : State, exec .seed s = .next t →
    ∃ u, exec .next t = .next u ∧ u.log = t.log ++ [.responded ⟨.ok, 0xC0562E31B467F91F#64, 0#56⟩]) ∧
  (∀ len : Len, decode (commandWord 0x01#8 len) = .instr .seed ↔ len = 0#56) ∧
  (∀ (s : State) (len : Len) (a : Option Answer), s.fsm = .idle →
    s.hostInput = ⟨false, some (commandWord 0x01#8 len), a⟩ → len ≠ 0#56 →
    step s = .next ((s.consumeInput.logAccepted (commandWord 0x01#8 len)).raise .illegalCommand 0#56))

/-- 40_engine R74, R70: NEXT completes in every state, outside IDLE too by the model's choice (log entry 16). It advances the engine by one step, responds with the word R70 gives,
and changes neither BUF nor CUR nor anything else; a word with OP 0x02 and LEN ≠ 0 is not NEXT and raises
ILLEGAL_COMMAND. -/
def Obligations.NextCommand : Prop :=
  (∀ (s : State) (s0 s1 s1a new : Word),
    s0 = s.gen.word s.gen.p → s1 = s.gen.word (s.gen.p + 1#4) → s1a = s1 ^^^ (s1 <<< 31) →
    new = s1a ^^^ (s1a >>> 11) ^^^ s0 ^^^ (s0 >>> 30) →
    ∃ t, exec .next s = .next t ∧
      t.gen.p = s.gen.p + 1#4 ∧ t.gen.word (s.gen.p + 1#4) = new ∧
      (∀ i, i ≠ s.gen.p + 1#4 → t.gen.word i = s.gen.word i) ∧
      t.log = s.log ++ [.responded ⟨.ok, new * 1181783497276652981#64, 0#56⟩] ∧
      t.cfg = s.cfg ∧ SameBytes s t ∧ t.cur = s.cur ∧ t.fsm = s.fsm ∧ t.rem = s.rem ∧ t.k = s.k ∧ t.nch = s.nch ∧
      t.acc = s.acc ∧ t.inputs = s.inputs) ∧
  (∀ len : Len, decode (commandWord 0x02#8 len) = .instr .next ↔ len = 0#56) ∧
  (∀ (s : State) (len : Len) (a : Option Answer), s.fsm = .idle →
    s.hostInput = ⟨false, some (commandWord 0x02#8 len), a⟩ → len ≠ 0#56 →
    step s = .next ((s.consumeInput.logAccepted (commandWord 0x02#8 len)).raise .illegalCommand 0#56))

/-- 41_stream_buffer R82, 30_encoding R56: accepting READ loads REM with the word's LEN unchanged, clears ACC and enters
READ_LOOP; nothing else changes. That `exec` does so outside IDLE too is the model's choice (log entry 16). -/
def Obligations.ReadAccept : Prop :=
  (∀ (s : State) (n : Len), ∃ t, exec (.read n) s = .next t ∧ t.rem = n ∧ t.acc = 0#56 ∧ t.fsm = .readLoop ∧
    t.cfg = s.cfg ∧ t.gen = s.gen ∧ SameBytes s t ∧ t.cur = s.cur ∧ t.k = s.k ∧ t.nch = s.nch ∧ t.inputs = s.inputs ∧
    t.log = s.log) ∧
  (∀ (s : State) (c : Word) (a : Option Answer), s.fsm = .idle → s.hostInput = ⟨false, some c, a⟩ →
    c.toNat / 2 ^ 56 = 3 → ∃ t, step s = .next t ∧ t.rem.toNat = c.toNat % 2 ^ 56 ∧ t.acc = 0#56 ∧
      t.fsm = .readLoop ∧ t.log = s.log ++ [.accepted c])

/-- 41_stream_buffer R98, 30_encoding R60, 60_exceptions R108: WRITE completes in every state (outside IDLE too by the model's choice,
log entry 16), with the response
(UNSUPPORTED_OPERATION, 0, 0) and no other change; every word with OP 0x04, whatever its LEN, is WRITE and is answered
so. -/
def Obligations.WriteIsRejected : Prop :=
  (∀ s : State, ∃ t, exec .write s = .next t ∧ t.fsm = .idle ∧
    t.log = s.log ++ [.responded ⟨.unsupportedOperation, 0#64, 0#56⟩] ∧
    t.cfg = s.cfg ∧ t.gen = s.gen ∧ SameBytes s t ∧ t.cur = s.cur ∧ t.rem = s.rem ∧ t.k = s.k ∧ t.nch = s.nch ∧
    t.acc = s.acc ∧ t.inputs = s.inputs) ∧
  (∀ (s : State) (c : Word) (a : Option Answer), s.fsm = .idle → s.hostInput = ⟨false, some c, a⟩ →
    c.toNat / 2 ^ 56 = 4 → decode c = .instr .write ∧ ∃ t, step s = .next t ∧ t.fsm = .idle ∧
      t.log = s.log ++ [.accepted c, .responded ⟨.unsupportedOperation, 0#64, 0#56⟩] ∧
      t.inputs = s.inputs.tail ∧ t.cfg = s.cfg ∧ t.gen = s.gen ∧ SameBytes s t ∧ t.cur = s.cur ∧ t.rem = s.rem ∧
      t.k = s.k ∧ t.nch = s.nch ∧ t.acc = s.acc)

/-- 41_stream_buffer R99: removing a WRITE from a command sequence changes no chunk offer and no response but its own. The
run with the WRITE presented and the run without it answer the same, state for state, but for the WRITE's own two
events. -/
def Obligations.WriteLeavesLaterRunsAlone : Prop :=
  ∀ (s : State) (c : Word) (a : Option Answer) (n : Nat), s.fsm = .idle → s.hostInput = ⟨false, some c, a⟩ →
    c.toNat / 2 ^ 56 = 4 →
    (∀ t, run n s.consumeInput = .next t → ∃ new, t.log = s.log ++ new ∧
      run (n + 1) s = .next (t.withLog
        (s.log ++ [.accepted c, .responded ⟨.unsupportedOperation, 0#64, 0#56⟩] ++ new))) ∧
    (∀ f, run n s.consumeInput = .fault f → run (n + 1) s = .fault f)

/-! ## The FSM steps of a READ -/

/-- 41_stream_buffer R83: the READ_LOOP step. It tests REM = 0 first and CUR = CAP second. -/
def Obligations.ReadLoopStep : Prop :=
  ∀ s : State, s.fsm = .readLoop → s.hostInput.reset = false → s.cur ≤ s.cap →
    ∃ t, step s = .next t ∧ t.inputs = s.inputs.tail ∧ t.cfg = s.cfg ∧ t.gen = s.gen ∧ SameBytes s t ∧ t.cur = s.cur ∧
      t.rem = s.rem ∧ t.acc = s.acc ∧
      (s.rem = 0#56 → t.fsm = .idle ∧ t.log = s.log ++ [.responded ⟨.ok, 0#64, s.acc⟩] ∧ t.k = s.k ∧ t.nch = s.nch) ∧
      (s.rem ≠ 0#56 → s.cur = s.cap → t.fsm = .refill ∧ t.k = 0 ∧ t.log = s.log ∧ t.nch = s.nch) ∧
      (s.rem ≠ 0#56 → s.cur < s.cap → t.fsm = .xfer ∧ t.nch = min s.rem.toNat (s.cap - s.cur) ∧ 1 ≤ t.nch ∧
        t.nch ≤ s.cap - s.cur ∧ t.log = s.log ∧ t.k = s.k)

/-- 41_stream_buffer R85, 20_memory R38, R40: the REFILL step with K < CAP_WORDS. One engine step; its word goes to
BUF[8K .. 8K+7] in the instance's byte order and every other byte stays; K + 1; no response and no offer. -/
def Obligations.RefillWordStep : Prop :=
  ∀ s : State, s.fsm = .refill → s.hostInput.reset = false → s.k < s.cfg.capWords →
    ∃ t, step s = .next t ∧ t.gen = (engineStep s.gen).1 ∧ t.k = s.k + 1 ∧
      (∀ j, j < 8 → Memory.byteAt t.buf (8 * s.k + j) =
        some (BitVec.ofNat 8 ((engineStep s.gen).2.toNat / 2 ^ (8 * byteLane s.cfg.byteOrder j)))) ∧
      (∀ a, a < 8 * s.k ∨ 8 * s.k + 8 ≤ a → Memory.byteAt t.buf a = Memory.byteAt s.buf a) ∧
      t.inputs = s.inputs.tail ∧ t.cfg = s.cfg ∧ t.cur = s.cur ∧ t.fsm = .refill ∧ t.rem = s.rem ∧ t.nch = s.nch ∧
      t.acc = s.acc ∧ t.log = s.log

/-- 41_stream_buffer R86: the REFILL step with K = CAP_WORDS ends the refill: CUR <- 0, back to READ_LOOP. -/
def Obligations.RefillEndStep : Prop :=
  ∀ s : State, s.fsm = .refill → s.hostInput.reset = false → s.k = s.cfg.capWords →
    ∃ t, step s = .next t ∧ t.cur = 0 ∧ t.fsm = .readLoop ∧
      t.inputs = s.inputs.tail ∧ t.cfg = s.cfg ∧ t.gen = s.gen ∧ SameBytes s t ∧ t.rem = s.rem ∧ t.k = s.k ∧
      t.nch = s.nch ∧ t.acc = s.acc ∧ t.log = s.log

/-- 41_stream_buffer R87, R88: an acknowledged chunk is consumed. The bytes offered are BUF[CUR .. CUR+NCH-1]; CUR, REM
and ACC move by NCH, exactly. -/
def Obligations.AcknowledgedChunkIsConsumed : Prop :=
  ∀ s : State, s.Inv → s.fsm = .xfer → s.hostInput.reset = false → s.hostInput.ans = some .ack →
    ∃ t bs, step s = .next t ∧ s.IsChunk bs ∧ t.log = s.log ++ [.offered bs .ack] ∧
      t.cur = s.cur + s.nch ∧ t.cur ≤ s.cap ∧ s.nch ≤ s.rem.toNat ∧ t.rem.toNat = s.rem.toNat - s.nch ∧
      t.acc.toNat = s.acc.toNat + s.nch ∧ t.fsm = .readLoop ∧
      t.inputs = s.inputs.tail ∧ t.cfg = s.cfg ∧ t.gen = s.gen ∧ SameBytes s t ∧ t.k = s.k ∧ t.nch = s.nch

/-- 41_stream_buffer R89, 60_exceptions R109, 20_memory R53: a chunk answered FAULT ends the READ with
(TRANSFER_FAULT, 0, ACC). CUR and REM are not advanced, no engine step is undone, the buffer is kept. -/
def Obligations.FaultedChunkEndsTheRead : Prop :=
  ∀ s : State, s.Inv → s.fsm = .xfer → s.hostInput.reset = false → s.hostInput.ans = some .fault →
    ∃ t bs, step s = .next t ∧ s.IsChunk bs ∧
      t.log = s.log ++ [.offered bs .fault, .responded ⟨.transferFault, 0#64, s.acc⟩] ∧ t.fsm = .idle ∧
      t.cur = s.cur ∧ t.rem = s.rem ∧ t.gen = s.gen ∧ SameBytes s t ∧ t.acc = s.acc ∧ t.k = s.k ∧ t.nch = s.nch ∧
      t.inputs = s.inputs.tail ∧ t.cfg = s.cfg

/-- 41_stream_buffer R84, 60_exceptions R123, R124 say that the block has no step of its own in IDLE without a word, nor in
XFER without an answer, and that its state survives. That the machine then answers a next state, which only takes the host's move
off its list, is the model's choice (log entry 6). -/
def Obligations.BlockWaitsForTheHost : Prop :=
  ∀ s : State, s.hostInput.reset = false →
    (s.fsm = .idle ∧ s.hostInput.word = none) ∨ (s.fsm = .xfer ∧ s.hostInput.ans = none) →
    step s = .next s.consumeInput

/-- 70_reset_and_hazards R131, 41_stream_buffer R82: while the block is busy, what word the host presents, or whether it
presents one, makes no difference to the step, and no word is accepted. -/
def Obligations.BusyBlockIgnoresWords : Prop :=
  ∀ (s : State) (r : Bool) (a : Option Answer) (w w' : Option Word) (rest : List HostInput), s.fsm ≠ .idle →
    step (s.withInputs (⟨r, w, a⟩ :: rest)) = step (s.withInputs (⟨r, w', a⟩ :: rest)) ∧
    ∀ t, step (s.withInputs (⟨r, w, a⟩ :: rest)) = .next t → acceptedWords t.log = acceptedWords s.log

/-- The model's reading (log entry 8): an answer given while no chunk is on offer makes no difference. -/
def Obligations.AnswerWithoutOfferIsIgnored : Prop :=
  ∀ (s : State) (r : Bool) (w : Option Word) (a a' : Option Answer) (rest : List HostInput), s.fsm ≠ .xfer →
    step (s.withInputs (⟨r, w, a⟩ :: rest)) = step (s.withInputs (⟨r, w, a'⟩ :: rest))

/-- 41_stream_buffer R91: READ 0 delivers nothing: accept, then one READ_LOOP step that responds (OK, 0, 0), even when the
buffer is exhausted; no refill, no engine step, no offer. -/
def Obligations.ReadZero : Prop :=
  ∀ (s : State) (a : Option Answer) (i : HostInput) (rest : List HostInput), s.fsm = .idle → i.reset = false →
    ∃ t, run 2 (s.withInputs (⟨false, some 0x0300000000000000#64, a⟩ :: i :: rest)) = .next t ∧ t.fsm = .idle ∧
      t.log = s.log ++ [.accepted 0x0300000000000000#64, .responded ⟨.ok, 0#64, 0#56⟩] ∧
      t.gen = s.gen ∧ SameBytes s t ∧ t.cur = s.cur ∧ t.rem = 0#56 ∧ t.acc = 0#56 ∧ t.k = s.k ∧ t.nch = s.nch ∧
      t.cfg = s.cfg ∧ t.inputs = rest

/-- 41_stream_buffer R92: refill is lazy. When the acknowledged chunk is both the rest of the READ and the rest of the
buffer, the READ responds with CUR = CAP and no engine step and no refill happens. -/
def Obligations.ExactReadLeavesBufferExhausted : Prop :=
  ∀ (s : State) (w w' : Option Word) (a : Option Answer) (rest : List HostInput), s.Inv → s.fsm = .xfer →
    s.rem.toNat = s.cap - s.cur →
    ∃ t bs, run 2 (s.withInputs (⟨false, w, some .ack⟩ :: ⟨false, w', a⟩ :: rest)) = .next t ∧ t.fsm = .idle ∧
      t.cur = t.cap ∧ t.gen = s.gen ∧ SameBytes s t ∧
      t.log = s.log ++ [.offered bs .ack, .responded ⟨.ok, 0#64, s.acc + s.rem⟩]

/-- 20_memory R52, 70_reset_and_hazards R128, R135: after SEED the unread bytes are gone. A READ of n ≥ 1 bytes then
starts a refill at word 0, from the seed. That `exec` of SEED has this effect outside IDLE too is the model's choice (log
entry 16). -/
def Obligations.ReadAfterSeedRefillsFirst : Prop :=
  ∀ (s : State) (n : Len) (i : HostInput) (rest : List HostInput) (t : State), n ≠ 0#56 → i.reset = false →
    exec .seed s = .next t →
    ∃ u, run 2 ((t.withFsm .idle).withInputs (⟨false, some (encode (.read n)), none⟩ :: i :: rest)) = .next u ∧
      u.fsm = .refill ∧ u.k = 0 ∧ u.gen = GeneratorState.seed ∧ u.rem = n ∧ u.acc = 0#56

/-- 41_stream_buffer R103, 70_reset_and_hazards R134: after a transfer fault the next READ offers the same bytes first.
The faulted chunk and the new one are the bytes of the same buffer from the same cursor, so they agree as far as both
go. -/
def Obligations.RetryOffersTheSameBytes : Prop :=
  ∀ (s : State) (w : Option Word) (n : Len) (i : HostInput) (rest : List HostInput), s.Inv → s.fsm = .xfer →
    n ≠ 0#56 → i.reset = false →
    ∃ u bs bs', run 3 (s.withInputs (⟨false, w, some .fault⟩ :: ⟨false, some (encode (.read n)), none⟩ :: i :: rest))
        = .next u ∧
      u.fsm = .xfer ∧ u.cur = s.cur ∧ u.nch = min n.toNat (s.cap - s.cur) ∧
      s.chunkOnOffer = some (.ok bs) ∧ u.chunkOnOffer = some (.ok bs') ∧
      bs.take (min s.nch u.nch) = bs'.take (min s.nch u.nch)

/-- 41_stream_buffer R101: refill and NEXT share one engine. The 8 bytes a refill step writes are those of the word NEXT
would have returned from the same state, and both leave the engine alike. NEXT is run here by `exec` in a REFILL state, which no
step does: that this has a meaning is the model's choice (log entry 16). -/
def Obligations.RefillAndNextShareTheEngine : Prop :=
  ∀ s t u : State, s.fsm = .refill → s.hostInput.reset = false → s.k < s.cfg.capWords →
    step s = .next t → exec .next s = .next u →
    t.gen = u.gen ∧ ∃ w, u.log = s.log ++ [.responded ⟨.ok, w, 0#56⟩] ∧
      ∀ j, j < 8 → Memory.byteAt t.buf (8 * s.k + j) = (bytesBO s.cfg.byteOrder w)[j]?

/-! ## Reset -/

/-- 70_reset_and_hazards R125, R126, 60_exceptions R113: reset takes effect in every state and whatever word or answer comes
with it. It seeds, sets CUR to CAP, goes IDLE, clears the counters, leaves BUF, emits no response, withdraws the chunk on
offer. -/
def Obligations.ResetTakesPrecedence : Prop :=
  ∀ s : State, s.hostInput.reset = true →
    ∃ t, step s = .next t ∧ (∀ i : BitVec 4, (t.gen.word i).toNat = i.toNat + 1) ∧ t.gen.p = 0#4 ∧ t.cur = s.cap ∧
      t.fsm = .idle ∧ t.rem = 0#56 ∧ t.k = 0 ∧ t.nch = 0 ∧ t.acc = 0#56 ∧ SameBytes s t ∧ t.cfg = s.cfg ∧
      t.inputs = s.inputs.tail ∧ t.log = s.log ++ [.resetTaken (decide (s.fsm ≠ .idle))] ∧ t.chunkOnOffer = none

/-- 10_state R16, 70_reset_and_hazards R125: the state after reset, for every instance. That BUF then holds unknown bytes,
and that State.reset is the reference instance with nothing yet on the interface, are the model's choices (log entries 1,
2, 4 and 5). -/
def Obligations.StateAfterReset : Prop :=
  (∀ cfg : Config, ∀ i : BitVec 4, ((State.resetOf cfg).gen.word i).toNat = i.toNat + 1) ∧
  (∀ cfg : Config, (State.resetOf cfg).gen.p = 0#4 ∧ (State.resetOf cfg).cur = 8 * cfg.capWords ∧
    (State.resetOf cfg).ready = true ∧ (State.resetOf cfg).rem = 0#56 ∧ (State.resetOf cfg).k = 0 ∧
    (State.resetOf cfg).nch = 0 ∧ (State.resetOf cfg).acc = 0#56 ∧
    ∀ a, Memory.byteAt (State.resetOf cfg).buf a = none) ∧
  State.reset = State.resetOf ⟨128, .le⟩ ∧ State.reset.cur = 1024

/-- 70_reset_and_hazards R128: after reset the first NEXT returns 0xC0562E31B467F91F, and the first READ of n ≥ 1 bytes
refills first, with the bytes of that same output in front. -/
def Obligations.FirstCommandAfterReset : Prop :=
  ∀ s t : State, s.cfg.wf = true → s.hostInput.reset = true → step s = .next t →
    (∃ u, exec .next t = .next u ∧ u.log = t.log ++ [.responded ⟨.ok, 0xC0562E31B467F91F#64, 0#56⟩]) ∧
    (∀ (n : Len) (i j : HostInput) (rest : List HostInput), n ≠ 0#56 → i.reset = false → j.reset = false →
      ∃ u, run 3 (t.withInputs (⟨false, some (encode (.read n)), none⟩ :: i :: j :: rest)) = .next u ∧
        u.fsm = .refill ∧ u.k = 1 ∧ u.rem = n ∧
        ∀ x, x < 8 → Memory.byteAt u.buf x = (bytesBO s.cfg.byteOrder 0xC0562E31B467F91F#64)[x]?)

/-- 70_reset_and_hazards R135, 10_state R22: reset forgets the past. Two blocks with the same parameters, whatever else their
states hold, that are reset and then see the same host, behave alike from there on: the same events, the same engine, the same
registers. What was in BUF before is never observed. -/
def Obligations.ResetForgetsThePast : Prop :=
  ∀ (s s' t t' : State) (k : Nat), s.cfg = s'.cfg → s.hostInput.reset = true → s'.hostInput.reset = true →
    s.inputs.tail = s'.inputs.tail → run (k + 1) s = .next t → run (k + 1) s' = .next t' →
    ∃ b b' new, t.log = s.log ++ .resetTaken b :: new ∧ t'.log = s'.log ++ .resetTaken b' :: new ∧
      t.gen = t'.gen ∧ t.cur = t'.cur ∧ t.fsm = t'.fsm ∧ t.rem = t'.rem ∧ t.k = t'.k ∧ t.nch = t'.nch ∧
      t.acc = t'.acc

/-- 70_reset_and_hazards R135, 40_engine R69, 10_state R22: reset and SEED repeat the stream. Two blocks with the same parameters,
whatever else their states hold, of which each is reset or accepts SEED, and which then see the same host, behave alike from there
on: the same events, the same engine, CUR and fsm, and the same REM, ACC, K and NCH wherever these mean something. -/
def Obligations.RestartRepeatsTheStream : Prop :=
  ∀ (s s' t t' : State) (k : Nat), s.cfg = s'.cfg → s.Restarts → s'.Restarts → s.inputs.tail = s'.inputs.tail →
    run (k + 1) s = .next t → run (k + 1) s' = .next t' →
    ∃ u u' new, step s = .next u ∧ step s' = .next u' ∧ t.log = u.log ++ new ∧ t'.log = u'.log ++ new ∧
      t.SameMeaning t'

/-! ## Rules of the whole machine -/

/-- 00_scope R11, 10_state R16: the widths of CUR, NCH and K. CUR_W and K_W are the least widths holding 0..CAP and
0..CAP_WORDS, 11 and 8 bits in the reference configuration, and in a state that meets the invariant the registers at these widths
hold what the model's counters hold. The opcode and the length fields are all of a command word. -/
def Obligations.RegisterWidths : Prop :=
  (∀ (c : Config) (w : Nat), (c.curWidth ≤ w ↔ c.cap < 2 ^ w) ∧ (c.kWidth ≤ w ↔ c.capWords < 2 ^ w)) ∧
  Config.reference.curWidth = 11 ∧ Config.reference.kWidth = 8 ∧
  (∀ s : State, s.Inv → s.curReg.toNat = s.cur ∧ s.nchReg.toNat = s.nch ∧ s.kReg.toNat = s.k) ∧
  (∀ c : Word, commandWord (opField c) (lenField c) = c)

/-- The invariant holds after reset, in every well-formed instance (10_state R16, R19, R21, R22). -/
def Obligations.InvariantAtReset : Prop :=
  ∀ cfg : Config, cfg.wf = true → (State.resetOf cfg).Inv

/-- Every step keeps the invariant, whatever the host does: the ranges of the registers, buffer validity (10_state R22), the
bound on ACC and REM, the canonical form of BUF, the state words not all zero. -/
def Obligations.InvariantKeptByEveryStep : Prop :=
  ∀ s t : State, s.Inv → step s = .next t → t.Inv

/-- 60_exceptions R111, 41_stream_buffer R104, 10_state R22, R35: in a state that meets the invariant every step answers a
next state, whatever the host does. No unknown byte is read, no access leaves BUF. -/
def Obligations.NoFaultUnderInvariant : Prop :=
  ∀ s : State, s.Inv → ∃ t, step s = .next t

/-- 20_memory R39: no command, reset or state changes the byte order (nor the capacity). -/
def Obligations.ParametersNeverChange : Prop :=
  ∀ s t : State, step s = .next t → t.cfg = s.cfg

/-- 10_state R17, R18, R20, R21, R23: which steps write which state. The engine: reset, SEED, NEXT and the refill word;
BUF: only the refill word; CUR: reset, SEED, the end of a refill, an acknowledged chunk; and the FSM registers. -/
def Obligations.OnlyTheseStepsWrite : Prop :=
  ∀ s t : State, step s = .next t →
    (t.gen ≠ s.gen → s.hostInput.reset = true ∨
      (s.fsm = .idle ∧ ∃ c, s.hostInput.word = some c ∧ (decode c = .instr .seed ∨ decode c = .instr .next)) ∨
      (s.fsm = .refill ∧ s.k < s.cfg.capWords)) ∧
    (t.buf ≠ s.buf → s.hostInput.reset = false ∧ s.fsm = .refill ∧ s.k < s.cfg.capWords) ∧
    (t.cur ≠ s.cur → s.hostInput.reset = true ∨
      (s.fsm = .idle ∧ ∃ c, s.hostInput.word = some c ∧ decode c = .instr .seed) ∨
      (s.fsm = .refill ∧ s.k = s.cfg.capWords) ∨ (s.fsm = .xfer ∧ s.hostInput.ans = some .ack)) ∧
    (t.rem ≠ s.rem ∨ t.acc ≠ s.acc → s.hostInput.reset = true ∨
      (s.fsm = .idle ∧ ∃ c n, s.hostInput.word = some c ∧ decode c = .instr (.read n)) ∨
      (s.fsm = .xfer ∧ s.hostInput.ans = some .ack)) ∧
    (t.k ≠ s.k → s.hostInput.reset = true ∨ s.fsm = .readLoop ∨ (s.fsm = .refill ∧ s.k < s.cfg.capWords)) ∧
    (t.nch ≠ s.nch → s.hostInput.reset = true ∨ s.fsm = .readLoop)

/-- 41_stream_buffer R104, 30_encoding R64: every chunk on offer lies within BUF, is not empty, is no longer than what is
still to deliver, and can be read; no step in XFER changes BUF, so no chunk spans a refill. -/
def Obligations.ChunkBounds : Prop :=
  ∀ s : State, s.Inv → s.fsm = .xfer →
    1 ≤ s.nch ∧ s.nch ≤ s.cap ∧ s.cur + s.nch ≤ s.cap ∧ s.nch ≤ s.rem.toNat ∧
    (∃ bs, s.chunkOnOffer = some (.ok bs) ∧ s.IsChunk bs) ∧
    (∀ t, step s = .next t → t.buf = s.buf)

/-- 10_state R28: ACC + REM equals the READ's LEN throughout the READ. -/
def Obligations.AccPlusRemIsLen : Prop :=
  ∀ (s t u : State) (n : Len) (k : Nat), s.Inv → s.fsm = .idle → exec (.read n) s = .next t → t.NoReset k →
    run k t = .next u → acceptedWords u.log = acceptedWords t.log → u.fsm ≠ .idle →
    u.acc.toNat + u.rem.toNat = n.toNat

/-- 30_encoding R62, 70_reset_and_hazards R133: exactly one response per accepted command, less those aborted by reset and
the one in progress. A step accepts at most one word and emits at most one response; without reset it emits one exactly when
it ends a command, leaving fsm = IDLE, so responses come in the order of acceptance; with reset it emits none. -/
def Obligations.OneResponsePerCommand : Prop :=
  (∀ cfg : Config, (State.resetOf cfg).Balanced) ∧
  (∀ s t : State, s.Balanced → step s = .next t → t.Balanced) ∧
  (∀ s t : State, step s = .next t → ∃ new, t.log = s.log ++ new ∧ (responsesIn new).length ≤ 1 ∧
    (acceptedWords new).length ≤ 1 ∧ (s.fsm ≠ .idle → acceptedWords new = []) ∧
    (s.hostInput.reset = true → responsesIn new = []) ∧
    (s.hostInput.reset = false →
      ((responsesIn new).length = 1 ↔ t.fsm = .idle ∧ (s.fsm ≠ .idle ∨ acceptedWords new ≠ []))))

/-- The record of the interface is never read: with another record behind it the machine makes the same step and adds the
same events (log entry 4). -/
def Obligations.RecordIsNeverRead : Prop :=
  ∀ (s : State) (l : List Event),
    (∀ t, step s = .next t → ∃ new, t.log = s.log ++ new ∧ step (s.withLog l) = .next (t.withLog (l ++ new))) ∧
    (∀ f, step s = .fault f → step (s.withLog l) = .fault f)

/-- 41_stream_buffer R90, R97: every READ, whatever the host answers and when, ends in one of two ways. With OK: COUNT = n,
n bytes delivered, the refills, engine steps and offers R97 counts, all acknowledged, and CUR where R97 says. Or with
TRANSFER_FAULT after a FAULT answer: COUNT = the bytes delivered, fewer than n. -/
def Obligations.ReadEndsExactOrFaulted : Prop :=
  ∀ (s t u : State) (n : Len) (k : Nat), s.Inv → s.fsm = .idle → exec (.read n) s = .next t → t.NoReset k →
    run k t = .next u → acceptedWords u.log = acceptedWords t.log → u.fsm = .idle →
    ∃ new, u.log = s.log ++ new ∧
      ((responsesIn new = [⟨.ok, 0#64, n⟩] ∧ (deliveredIn new).length = n.toNat ∧
          answersIn new = List.replicate (offerCount s.cap s.cur n.toNat) .ack ∧
          u.gen = engineAfter (refillCount s.cap s.cur n.toNat * s.cfg.capWords) s.gen ∧
          u.cur + refillCount s.cap s.cur n.toNat * s.cap = s.cur + n.toNat) ∨
        (∃ m : Len, responsesIn new = [⟨.transferFault, 0#64, m⟩] ∧ (deliveredIn new).length = m.toNat ∧
          m.toNat < n.toNat ∧ (answersIn new).getLast? = some .fault))

/-- 41_stream_buffer R102, with R90 and R97: a READ in which the host asserts no reset and ACKs every offer in the step in which
it stands completes in exactly the steps R102 counts: after each smaller number of steps it is still in progress, and
after that number it is in IDLE with (OK, 0, n), n bytes delivered, the refills and offers R97 counts, and CUR where R97 says.
What the host presents or answers in the other steps is left open. -/
def Obligations.AcknowledgedReadCompletes : Prop :=
  ∀ (s : State) (n : Len) (a : Option Answer), s.Inv → s.fsm = .idle →
    s.hostInput = ⟨false, some (encode (.read n)), a⟩ →
    s.NoReset (readSteps s.cfg s.cur n.toNat) → s.AcksEveryOffer (readSteps s.cfg s.cur n.toNat) →
    (∀ j, 0 < j → j < readSteps s.cfg s.cur n.toNat → ∃ u, run j s = .next u ∧ u.fsm ≠ .idle) ∧
    ∃ t new, run (readSteps s.cfg s.cur n.toNat) s = .next t ∧
      t.log = s.log ++ .accepted (encode (.read n)) :: new ∧ t.fsm = .idle ∧
      t.inputs = s.inputs.drop (readSteps s.cfg s.cur n.toNat) ∧
      responsesIn new = [⟨.ok, 0#64, n⟩] ∧ acceptedWords new = [] ∧ (deliveredIn new).length = n.toNat ∧
      answersIn new = List.replicate (offerCount s.cap s.cur n.toNat) .ack ∧
      t.gen = engineAfter (refillCount s.cap s.cur n.toNat * s.cfg.capWords) s.gen ∧
      t.cur + refillCount s.cap s.cur n.toNat * s.cap = s.cur + n.toNat

/-- 41_stream_buffer R95, its last claim: the FSM of R82 to R89 delivers exactly what the algorithm of R81 delivers. For every host, from the
acceptance of READ n to its response, the FSM ends in the state the algorithm computes from the answers the host gave, with
the same offers and the same response. -/
def Obligations.ReadFsmRefinesAlgorithm : Prop :=
  ∀ (s t u : State) (n : Len) (k : Nat), s.Inv → s.fsm = .idle → exec (.read n) s = .next t → t.NoReset k →
    run k t = .next u → acceptedWords u.log = acceptedWords t.log → u.fsm = .idle →
    ∃ new v, u.log = s.log ++ new ∧ readAlgorithm n (answersIn new) s = .responded v ∧ u.SameRead v

/-- 41_stream_buffer R95: the stream law. From a state in IDLE with CUR = CAP, such as reset and SEED leave, with no NEXT,
SEED or reset, whatever the host does otherwise, the bytes acknowledged so far are the first ones of the concatenated engine
outputs. -/
def Obligations.StreamLaw : Prop :=
  ∀ (s : State) (moves : List HostInput) (k : Nat) (t : State), s.Inv → s.fsm = .idle → s.cur = s.cap →
    (∀ i ∈ moves, i.reset = false ∧ ∀ c, i.word = some c → decode c ≠ .instr .next ∧ decode c ≠ .instr .seed) →
    run k (s.withInputs moves) = .next t →
    ∃ new m, t.log = s.log ++ new ∧ t.gen = engineAfter m s.gen ∧
      deliveredIn new <+: streamBytes s.cfg.byteOrder m s.gen

/-- 41_stream_buffer R95, R132: the general law, for every host, with NEXT, SEED and reset. The block is a queue of bytes: each
engine output goes either to a refill, whose bytes join the queue's end, or to one NEXT, which returns it; the bytes acknowledged
are taken from the queue's front, in production order; SEED and reset empty the queue and go back to the seed; nothing else
touches it, so a NEXT leaves the bytes already in the buffer alone. -/
def Obligations.StreamIsAQueue : Prop :=
  ∀ s : State, s.Inv → ∃ q, s.IsUnread q ∧
    ∀ (k : Nat) (t : State), run k s = .next t →
      ∃ (acts : List StreamAction) (new : List Event) (m : StreamQueue), t.log = s.log ++ new ∧
        m = StreamQueue.acts s.cfg.byteOrder ⟨s.gen, q, [], []⟩ acts ∧
        t.gen = m.gen ∧ t.IsUnread m.queue ∧ deliveredIn new = m.served ∧ nextResultsIn new = m.results ∧
        acts.count .next = acceptsOf .next new ∧ acts.count .restart = acceptsOf .seed new + resetsIn new

/-- 41_stream_buffer R96: chunking invariance. Reading N bytes in one call delivers the same bytes as any sequence of calls
of lengths that sum to N, from the same state, every chunk being acknowledged at once (the host of
`ackMoves` says ACK in the other steps too, which the model ignores: log entry 8), and both end in the same S, p, CUR and BUF. -/
def Obligations.ChunkingInvariance : Prop :=
  ∀ (s : State) (n : Len) (parts : List Len), s.Inv → s.fsm = .idle →
    (parts.map BitVec.toNat).sum = n.toNat →
    ∃ t u, ackedRead n s = .next t ∧ ackedReads parts s = .next u ∧
      deliveredIn t.log = deliveredIn u.log ∧ t.gen = u.gen ∧ t.cur = u.cur ∧ t.buf = u.buf
end

