-- ==== Sys2Proof/Laws/State.lean ====
section
/-! SUPPORT. Reading a field of an updated state: one lemma per field per update, so that no later proof unfolds a
record update. -/

namespace Sys2Proof.Machine

variable (s : State)

/-! ### withGen -/
@[simp] theorem State.withGen_cfg (g : GeneratorState) : (s.withGen g).cfg = s.cfg := rfl
@[simp] theorem State.withGen_gen (g : GeneratorState) : (s.withGen g).gen = g := rfl
@[simp] theorem State.withGen_buf (g : GeneratorState) : (s.withGen g).buf = s.buf := rfl
@[simp] theorem State.withGen_cur (g : GeneratorState) : (s.withGen g).cur = s.cur := rfl
@[simp] theorem State.withGen_fsm (g : GeneratorState) : (s.withGen g).fsm = s.fsm := rfl
@[simp] theorem State.withGen_rem (g : GeneratorState) : (s.withGen g).rem = s.rem := rfl
@[simp] theorem State.withGen_k (g : GeneratorState) : (s.withGen g).k = s.k := rfl
@[simp] theorem State.withGen_nch (g : GeneratorState) : (s.withGen g).nch = s.nch := rfl
@[simp] theorem State.withGen_acc (g : GeneratorState) : (s.withGen g).acc = s.acc := rfl
@[simp] theorem State.withGen_inputs (g : GeneratorState) : (s.withGen g).inputs = s.inputs := rfl
@[simp] theorem State.withGen_log (g : GeneratorState) : (s.withGen g).log = s.log := rfl
@[simp] theorem State.withGen_cap (g : GeneratorState) : (s.withGen g).cap = s.cap := rfl

/-! ### withBuf -/
@[simp] theorem State.withBuf_cfg (m : Memory) : (s.withBuf m).cfg = s.cfg := rfl
@[simp] theorem State.withBuf_gen (m : Memory) : (s.withBuf m).gen = s.gen := rfl
@[simp] theorem State.withBuf_buf (m : Memory) : (s.withBuf m).buf = m := rfl
@[simp] theorem State.withBuf_cur (m : Memory) : (s.withBuf m).cur = s.cur := rfl
@[simp] theorem State.withBuf_fsm (m : Memory) : (s.withBuf m).fsm = s.fsm := rfl
@[simp] theorem State.withBuf_rem (m : Memory) : (s.withBuf m).rem = s.rem := rfl
@[simp] theorem State.withBuf_k (m : Memory) : (s.withBuf m).k = s.k := rfl
@[simp] theorem State.withBuf_nch (m : Memory) : (s.withBuf m).nch = s.nch := rfl
@[simp] theorem State.withBuf_acc (m : Memory) : (s.withBuf m).acc = s.acc := rfl
@[simp] theorem State.withBuf_inputs (m : Memory) : (s.withBuf m).inputs = s.inputs := rfl
@[simp] theorem State.withBuf_log (m : Memory) : (s.withBuf m).log = s.log := rfl
@[simp] theorem State.withBuf_cap (m : Memory) : (s.withBuf m).cap = s.cap := rfl

/-! ### withCur -/
@[simp] theorem State.withCur_cfg (v : Nat) : (s.withCur v).cfg = s.cfg := rfl
@[simp] theorem State.withCur_gen (v : Nat) : (s.withCur v).gen = s.gen := rfl
@[simp] theorem State.withCur_buf (v : Nat) : (s.withCur v).buf = s.buf := rfl
@[simp] theorem State.withCur_cur (v : Nat) : (s.withCur v).cur = v := rfl
@[simp] theorem State.withCur_fsm (v : Nat) : (s.withCur v).fsm = s.fsm := rfl
@[simp] theorem State.withCur_rem (v : Nat) : (s.withCur v).rem = s.rem := rfl
@[simp] theorem State.withCur_k (v : Nat) : (s.withCur v).k = s.k := rfl
@[simp] theorem State.withCur_nch (v : Nat) : (s.withCur v).nch = s.nch := rfl
@[simp] theorem State.withCur_acc (v : Nat) : (s.withCur v).acc = s.acc := rfl
@[simp] theorem State.withCur_inputs (v : Nat) : (s.withCur v).inputs = s.inputs := rfl
@[simp] theorem State.withCur_log (v : Nat) : (s.withCur v).log = s.log := rfl
@[simp] theorem State.withCur_cap (v : Nat) : (s.withCur v).cap = s.cap := rfl

/-! ### withFsm -/
@[simp] theorem State.withFsm_cfg (f : Fsm) : (s.withFsm f).cfg = s.cfg := rfl
@[simp] theorem State.withFsm_gen (f : Fsm) : (s.withFsm f).gen = s.gen := rfl
@[simp] theorem State.withFsm_buf (f : Fsm) : (s.withFsm f).buf = s.buf := rfl
@[simp] theorem State.withFsm_cur (f : Fsm) : (s.withFsm f).cur = s.cur := rfl
@[simp] theorem State.withFsm_fsm (f : Fsm) : (s.withFsm f).fsm = f := rfl
@[simp] theorem State.withFsm_rem (f : Fsm) : (s.withFsm f).rem = s.rem := rfl
@[simp] theorem State.withFsm_k (f : Fsm) : (s.withFsm f).k = s.k := rfl
@[simp] theorem State.withFsm_nch (f : Fsm) : (s.withFsm f).nch = s.nch := rfl
@[simp] theorem State.withFsm_acc (f : Fsm) : (s.withFsm f).acc = s.acc := rfl
@[simp] theorem State.withFsm_inputs (f : Fsm) : (s.withFsm f).inputs = s.inputs := rfl
@[simp] theorem State.withFsm_log (f : Fsm) : (s.withFsm f).log = s.log := rfl
@[simp] theorem State.withFsm_cap (f : Fsm) : (s.withFsm f).cap = s.cap := rfl

/-! ### withRem -/
@[simp] theorem State.withRem_cfg (v : Len) : (s.withRem v).cfg = s.cfg := rfl
@[simp] theorem State.withRem_gen (v : Len) : (s.withRem v).gen = s.gen := rfl
@[simp] theorem State.withRem_buf (v : Len) : (s.withRem v).buf = s.buf := rfl
@[simp] theorem State.withRem_cur (v : Len) : (s.withRem v).cur = s.cur := rfl
@[simp] theorem State.withRem_fsm (v : Len) : (s.withRem v).fsm = s.fsm := rfl
@[simp] theorem State.withRem_rem (v : Len) : (s.withRem v).rem = v := rfl
@[simp] theorem State.withRem_k (v : Len) : (s.withRem v).k = s.k := rfl
@[simp] theorem State.withRem_nch (v : Len) : (s.withRem v).nch = s.nch := rfl
@[simp] theorem State.withRem_acc (v : Len) : (s.withRem v).acc = s.acc := rfl
@[simp] theorem State.withRem_inputs (v : Len) : (s.withRem v).inputs = s.inputs := rfl
@[simp] theorem State.withRem_log (v : Len) : (s.withRem v).log = s.log := rfl
@[simp] theorem State.withRem_cap (v : Len) : (s.withRem v).cap = s.cap := rfl

/-! ### withK -/
@[simp] theorem State.withK_cfg (v : Nat) : (s.withK v).cfg = s.cfg := rfl
@[simp] theorem State.withK_gen (v : Nat) : (s.withK v).gen = s.gen := rfl
@[simp] theorem State.withK_buf (v : Nat) : (s.withK v).buf = s.buf := rfl
@[simp] theorem State.withK_cur (v : Nat) : (s.withK v).cur = s.cur := rfl
@[simp] theorem State.withK_fsm (v : Nat) : (s.withK v).fsm = s.fsm := rfl
@[simp] theorem State.withK_rem (v : Nat) : (s.withK v).rem = s.rem := rfl
@[simp] theorem State.withK_k (v : Nat) : (s.withK v).k = v := rfl
@[simp] theorem State.withK_nch (v : Nat) : (s.withK v).nch = s.nch := rfl
@[simp] theorem State.withK_acc (v : Nat) : (s.withK v).acc = s.acc := rfl
@[simp] theorem State.withK_inputs (v : Nat) : (s.withK v).inputs = s.inputs := rfl
@[simp] theorem State.withK_log (v : Nat) : (s.withK v).log = s.log := rfl
@[simp] theorem State.withK_cap (v : Nat) : (s.withK v).cap = s.cap := rfl

/-! ### withNch -/
@[simp] theorem State.withNch_cfg (v : Nat) : (s.withNch v).cfg = s.cfg := rfl
@[simp] theorem State.withNch_gen (v : Nat) : (s.withNch v).gen = s.gen := rfl
@[simp] theorem State.withNch_buf (v : Nat) : (s.withNch v).buf = s.buf := rfl
@[simp] theorem State.withNch_cur (v : Nat) : (s.withNch v).cur = s.cur := rfl
@[simp] theorem State.withNch_fsm (v : Nat) : (s.withNch v).fsm = s.fsm := rfl
@[simp] theorem State.withNch_rem (v : Nat) : (s.withNch v).rem = s.rem := rfl
@[simp] theorem State.withNch_k (v : Nat) : (s.withNch v).k = s.k := rfl
@[simp] theorem State.withNch_nch (v : Nat) : (s.withNch v).nch = v := rfl
@[simp] theorem State.withNch_acc (v : Nat) : (s.withNch v).acc = s.acc := rfl
@[simp] theorem State.withNch_inputs (v : Nat) : (s.withNch v).inputs = s.inputs := rfl
@[simp] theorem State.withNch_log (v : Nat) : (s.withNch v).log = s.log := rfl
@[simp] theorem State.withNch_cap (v : Nat) : (s.withNch v).cap = s.cap := rfl

/-! ### withAcc -/
@[simp] theorem State.withAcc_cfg (v : Len) : (s.withAcc v).cfg = s.cfg := rfl
@[simp] theorem State.withAcc_gen (v : Len) : (s.withAcc v).gen = s.gen := rfl
@[simp] theorem State.withAcc_buf (v : Len) : (s.withAcc v).buf = s.buf := rfl
@[simp] theorem State.withAcc_cur (v : Len) : (s.withAcc v).cur = s.cur := rfl
@[simp] theorem State.withAcc_fsm (v : Len) : (s.withAcc v).fsm = s.fsm := rfl
@[simp] theorem State.withAcc_rem (v : Len) : (s.withAcc v).rem = s.rem := rfl
@[simp] theorem State.withAcc_k (v : Len) : (s.withAcc v).k = s.k := rfl
@[simp] theorem State.withAcc_nch (v : Len) : (s.withAcc v).nch = s.nch := rfl
@[simp] theorem State.withAcc_acc (v : Len) : (s.withAcc v).acc = v := rfl
@[simp] theorem State.withAcc_inputs (v : Len) : (s.withAcc v).inputs = s.inputs := rfl
@[simp] theorem State.withAcc_log (v : Len) : (s.withAcc v).log = s.log := rfl
@[simp] theorem State.withAcc_cap (v : Len) : (s.withAcc v).cap = s.cap := rfl

/-! ### withInputs -/
@[simp] theorem State.withInputs_cfg (l : List HostInput) : (s.withInputs l).cfg = s.cfg := rfl
@[simp] theorem State.withInputs_gen (l : List HostInput) : (s.withInputs l).gen = s.gen := rfl
@[simp] theorem State.withInputs_buf (l : List HostInput) : (s.withInputs l).buf = s.buf := rfl
@[simp] theorem State.withInputs_cur (l : List HostInput) : (s.withInputs l).cur = s.cur := rfl
@[simp] theorem State.withInputs_fsm (l : List HostInput) : (s.withInputs l).fsm = s.fsm := rfl
@[simp] theorem State.withInputs_rem (l : List HostInput) : (s.withInputs l).rem = s.rem := rfl
@[simp] theorem State.withInputs_k (l : List HostInput) : (s.withInputs l).k = s.k := rfl
@[simp] theorem State.withInputs_nch (l : List HostInput) : (s.withInputs l).nch = s.nch := rfl
@[simp] theorem State.withInputs_acc (l : List HostInput) : (s.withInputs l).acc = s.acc := rfl
@[simp] theorem State.withInputs_inputs (l : List HostInput) : (s.withInputs l).inputs = l := rfl
@[simp] theorem State.withInputs_log (l : List HostInput) : (s.withInputs l).log = s.log := rfl
@[simp] theorem State.withInputs_cap (l : List HostInput) : (s.withInputs l).cap = s.cap := rfl

/-! ### withLog -/
@[simp] theorem State.withLog_cfg (l : List Event) : (s.withLog l).cfg = s.cfg := rfl
@[simp] theorem State.withLog_gen (l : List Event) : (s.withLog l).gen = s.gen := rfl
@[simp] theorem State.withLog_buf (l : List Event) : (s.withLog l).buf = s.buf := rfl
@[simp] theorem State.withLog_cur (l : List Event) : (s.withLog l).cur = s.cur := rfl
@[simp] theorem State.withLog_fsm (l : List Event) : (s.withLog l).fsm = s.fsm := rfl
@[simp] theorem State.withLog_rem (l : List Event) : (s.withLog l).rem = s.rem := rfl
@[simp] theorem State.withLog_k (l : List Event) : (s.withLog l).k = s.k := rfl
@[simp] theorem State.withLog_nch (l : List Event) : (s.withLog l).nch = s.nch := rfl
@[simp] theorem State.withLog_acc (l : List Event) : (s.withLog l).acc = s.acc := rfl
@[simp] theorem State.withLog_inputs (l : List Event) : (s.withLog l).inputs = s.inputs := rfl
@[simp] theorem State.withLog_log (l : List Event) : (s.withLog l).log = l := rfl
@[simp] theorem State.withLog_cap (l : List Event) : (s.withLog l).cap = s.cap := rfl

/-! ### pushLog -/
@[simp] theorem State.pushLog_cfg (e : Event) : (s.pushLog e).cfg = s.cfg := rfl
@[simp] theorem State.pushLog_gen (e : Event) : (s.pushLog e).gen = s.gen := rfl
@[simp] theorem State.pushLog_buf (e : Event) : (s.pushLog e).buf = s.buf := rfl
@[simp] theorem State.pushLog_cur (e : Event) : (s.pushLog e).cur = s.cur := rfl
@[simp] theorem State.pushLog_fsm (e : Event) : (s.pushLog e).fsm = s.fsm := rfl
@[simp] theorem State.pushLog_rem (e : Event) : (s.pushLog e).rem = s.rem := rfl
@[simp] theorem State.pushLog_k (e : Event) : (s.pushLog e).k = s.k := rfl
@[simp] theorem State.pushLog_nch (e : Event) : (s.pushLog e).nch = s.nch := rfl
@[simp] theorem State.pushLog_acc (e : Event) : (s.pushLog e).acc = s.acc := rfl
@[simp] theorem State.pushLog_inputs (e : Event) : (s.pushLog e).inputs = s.inputs := rfl
@[simp] theorem State.pushLog_log (e : Event) : (s.pushLog e).log = s.log ++ [e] := rfl
@[simp] theorem State.pushLog_cap (e : Event) : (s.pushLog e).cap = s.cap := rfl

/-! ### seedEngine -/
@[simp] theorem State.seedEngine_cfg : (s.seedEngine).cfg = s.cfg := rfl
@[simp] theorem State.seedEngine_gen : (s.seedEngine).gen = GeneratorState.seed := rfl
@[simp] theorem State.seedEngine_buf : (s.seedEngine).buf = s.buf := rfl
@[simp] theorem State.seedEngine_cur : (s.seedEngine).cur = s.cur := rfl
@[simp] theorem State.seedEngine_fsm : (s.seedEngine).fsm = s.fsm := rfl
@[simp] theorem State.seedEngine_rem : (s.seedEngine).rem = s.rem := rfl
@[simp] theorem State.seedEngine_k : (s.seedEngine).k = s.k := rfl
@[simp] theorem State.seedEngine_nch : (s.seedEngine).nch = s.nch := rfl
@[simp] theorem State.seedEngine_acc : (s.seedEngine).acc = s.acc := rfl
@[simp] theorem State.seedEngine_inputs : (s.seedEngine).inputs = s.inputs := rfl
@[simp] theorem State.seedEngine_log : (s.seedEngine).log = s.log := rfl
@[simp] theorem State.seedEngine_cap : (s.seedEngine).cap = s.cap := rfl

/-! ### respond -/
@[simp] theorem State.respond_cfg (st : Status) (r : Word) (c : Len) : (s.respond st r c).cfg = s.cfg := rfl
@[simp] theorem State.respond_gen (st : Status) (r : Word) (c : Len) : (s.respond st r c).gen = s.gen := rfl
@[simp] theorem State.respond_buf (st : Status) (r : Word) (c : Len) : (s.respond st r c).buf = s.buf := rfl
@[simp] theorem State.respond_cur (st : Status) (r : Word) (c : Len) : (s.respond st r c).cur = s.cur := rfl
@[simp] theorem State.respond_fsm (st : Status) (r : Word) (c : Len) : (s.respond st r c).fsm = s.fsm := rfl
@[simp] theorem State.respond_rem (st : Status) (r : Word) (c : Len) : (s.respond st r c).rem = s.rem := rfl
@[simp] theorem State.respond_k (st : Status) (r : Word) (c : Len) : (s.respond st r c).k = s.k := rfl
@[simp] theorem State.respond_nch (st : Status) (r : Word) (c : Len) : (s.respond st r c).nch = s.nch := rfl
@[simp] theorem State.respond_acc (st : Status) (r : Word) (c : Len) : (s.respond st r c).acc = s.acc := rfl
@[simp] theorem State.respond_inputs (st : Status) (r : Word) (c : Len) : (s.respond st r c).inputs = s.inputs := rfl
@[simp] theorem State.respond_log (st : Status) (r : Word) (c : Len) : (s.respond st r c).log = s.log ++ [.responded ⟨st, r, c⟩] := rfl
@[simp] theorem State.respond_cap (st : Status) (r : Word) (c : Len) : (s.respond st r c).cap = s.cap := rfl

/-! ### raise -/
@[simp] theorem State.raise_cfg (e : BlockError) (info : Len) : (s.raise e info).cfg = s.cfg := rfl
@[simp] theorem State.raise_gen (e : BlockError) (info : Len) : (s.raise e info).gen = s.gen := rfl
@[simp] theorem State.raise_buf (e : BlockError) (info : Len) : (s.raise e info).buf = s.buf := rfl
@[simp] theorem State.raise_cur (e : BlockError) (info : Len) : (s.raise e info).cur = s.cur := rfl
@[simp] theorem State.raise_fsm (e : BlockError) (info : Len) : (s.raise e info).fsm = .idle := rfl
@[simp] theorem State.raise_rem (e : BlockError) (info : Len) : (s.raise e info).rem = s.rem := rfl
@[simp] theorem State.raise_k (e : BlockError) (info : Len) : (s.raise e info).k = s.k := rfl
@[simp] theorem State.raise_nch (e : BlockError) (info : Len) : (s.raise e info).nch = s.nch := rfl
@[simp] theorem State.raise_acc (e : BlockError) (info : Len) : (s.raise e info).acc = s.acc := rfl
@[simp] theorem State.raise_inputs (e : BlockError) (info : Len) : (s.raise e info).inputs = s.inputs := rfl
@[simp] theorem State.raise_log (e : BlockError) (info : Len) : (s.raise e info).log = s.log ++ [.responded ⟨e.status, 0#64, info⟩] := rfl
@[simp] theorem State.raise_cap (e : BlockError) (info : Len) : (s.raise e info).cap = s.cap := rfl

/-! ### takeReset -/
@[simp] theorem State.takeReset_cfg : (s.takeReset).cfg = s.cfg := rfl
@[simp] theorem State.takeReset_gen : (s.takeReset).gen = GeneratorState.seed := rfl
@[simp] theorem State.takeReset_buf : (s.takeReset).buf = s.buf := rfl
@[simp] theorem State.takeReset_cur : (s.takeReset).cur = s.cap := rfl
@[simp] theorem State.takeReset_fsm : (s.takeReset).fsm = .idle := rfl
@[simp] theorem State.takeReset_rem : (s.takeReset).rem = 0#56 := rfl
@[simp] theorem State.takeReset_k : (s.takeReset).k = 0 := rfl
@[simp] theorem State.takeReset_nch : (s.takeReset).nch = 0 := rfl
@[simp] theorem State.takeReset_acc : (s.takeReset).acc = 0#56 := rfl
@[simp] theorem State.takeReset_inputs : (s.takeReset).inputs = s.inputs := rfl
@[simp] theorem State.takeReset_log : (s.takeReset).log = s.log ++ [.resetTaken (decide (s.fsm ≠ .idle))] := rfl
@[simp] theorem State.takeReset_cap : (s.takeReset).cap = s.cap := rfl

/-! ### consumeInput -/
@[simp] theorem State.consumeInput_cfg : (s.consumeInput).cfg = s.cfg := rfl
@[simp] theorem State.consumeInput_gen : (s.consumeInput).gen = s.gen := rfl
@[simp] theorem State.consumeInput_buf : (s.consumeInput).buf = s.buf := rfl
@[simp] theorem State.consumeInput_cur : (s.consumeInput).cur = s.cur := rfl
@[simp] theorem State.consumeInput_fsm : (s.consumeInput).fsm = s.fsm := rfl
@[simp] theorem State.consumeInput_rem : (s.consumeInput).rem = s.rem := rfl
@[simp] theorem State.consumeInput_k : (s.consumeInput).k = s.k := rfl
@[simp] theorem State.consumeInput_nch : (s.consumeInput).nch = s.nch := rfl
@[simp] theorem State.consumeInput_acc : (s.consumeInput).acc = s.acc := rfl
@[simp] theorem State.consumeInput_inputs : (s.consumeInput).inputs = s.inputs.tail := rfl
@[simp] theorem State.consumeInput_log : (s.consumeInput).log = s.log := rfl
@[simp] theorem State.consumeInput_cap : (s.consumeInput).cap = s.cap := rfl

/-! ### present -/
@[simp] theorem State.present_cfg (c : Word) : (s.present c).cfg = s.cfg := rfl
@[simp] theorem State.present_gen (c : Word) : (s.present c).gen = s.gen := rfl
@[simp] theorem State.present_buf (c : Word) : (s.present c).buf = s.buf := rfl
@[simp] theorem State.present_cur (c : Word) : (s.present c).cur = s.cur := rfl
@[simp] theorem State.present_fsm (c : Word) : (s.present c).fsm = s.fsm := rfl
@[simp] theorem State.present_rem (c : Word) : (s.present c).rem = s.rem := rfl
@[simp] theorem State.present_k (c : Word) : (s.present c).k = s.k := rfl
@[simp] theorem State.present_nch (c : Word) : (s.present c).nch = s.nch := rfl
@[simp] theorem State.present_acc (c : Word) : (s.present c).acc = s.acc := rfl
@[simp] theorem State.present_inputs (c : Word) : (s.present c).inputs = ⟨false, some c, none⟩ :: s.inputs := rfl
@[simp] theorem State.present_log (c : Word) : (s.present c).log = s.log := rfl
@[simp] theorem State.present_cap (c : Word) : (s.present c).cap = s.cap := rfl

/-! ### logAccepted -/
@[simp] theorem State.logAccepted_cfg (c : Word) : (s.logAccepted c).cfg = s.cfg := rfl
@[simp] theorem State.logAccepted_gen (c : Word) : (s.logAccepted c).gen = s.gen := rfl
@[simp] theorem State.logAccepted_buf (c : Word) : (s.logAccepted c).buf = s.buf := rfl
@[simp] theorem State.logAccepted_cur (c : Word) : (s.logAccepted c).cur = s.cur := rfl
@[simp] theorem State.logAccepted_fsm (c : Word) : (s.logAccepted c).fsm = s.fsm := rfl
@[simp] theorem State.logAccepted_rem (c : Word) : (s.logAccepted c).rem = s.rem := rfl
@[simp] theorem State.logAccepted_k (c : Word) : (s.logAccepted c).k = s.k := rfl
@[simp] theorem State.logAccepted_nch (c : Word) : (s.logAccepted c).nch = s.nch := rfl
@[simp] theorem State.logAccepted_acc (c : Word) : (s.logAccepted c).acc = s.acc := rfl
@[simp] theorem State.logAccepted_inputs (c : Word) : (s.logAccepted c).inputs = s.inputs := rfl
@[simp] theorem State.logAccepted_log (c : Word) : (s.logAccepted c).log = s.log ++ [.accepted c] := rfl
@[simp] theorem State.logAccepted_cap (c : Word) : (s.logAccepted c).cap = s.cap := rfl

/-! ### loadRead -/
@[simp] theorem State.loadRead_cfg (n : Len) : (s.loadRead n).cfg = s.cfg := rfl
@[simp] theorem State.loadRead_gen (n : Len) : (s.loadRead n).gen = s.gen := rfl
@[simp] theorem State.loadRead_buf (n : Len) : (s.loadRead n).buf = s.buf := rfl
@[simp] theorem State.loadRead_cur (n : Len) : (s.loadRead n).cur = s.cur := rfl
@[simp] theorem State.loadRead_fsm (n : Len) : (s.loadRead n).fsm = s.fsm := rfl
@[simp] theorem State.loadRead_rem (n : Len) : (s.loadRead n).rem = n := rfl
@[simp] theorem State.loadRead_k (n : Len) : (s.loadRead n).k = s.k := rfl
@[simp] theorem State.loadRead_nch (n : Len) : (s.loadRead n).nch = s.nch := rfl
@[simp] theorem State.loadRead_acc (n : Len) : (s.loadRead n).acc = 0#56 := rfl
@[simp] theorem State.loadRead_inputs (n : Len) : (s.loadRead n).inputs = s.inputs := rfl
@[simp] theorem State.loadRead_log (n : Len) : (s.loadRead n).log = s.log := rfl
@[simp] theorem State.loadRead_cap (n : Len) : (s.loadRead n).cap = s.cap := rfl

/-! ### consumeBytes -/
@[simp] theorem State.consumeBytes_cfg (m : Nat) : (s.consumeBytes m).cfg = s.cfg := rfl
@[simp] theorem State.consumeBytes_gen (m : Nat) : (s.consumeBytes m).gen = s.gen := rfl
@[simp] theorem State.consumeBytes_buf (m : Nat) : (s.consumeBytes m).buf = s.buf := rfl
@[simp] theorem State.consumeBytes_cur (m : Nat) : (s.consumeBytes m).cur = s.cur + m := rfl
@[simp] theorem State.consumeBytes_fsm (m : Nat) : (s.consumeBytes m).fsm = s.fsm := rfl
@[simp] theorem State.consumeBytes_rem (m : Nat) : (s.consumeBytes m).rem = BitVec.ofNat 56 (s.rem.toNat - m) := rfl
@[simp] theorem State.consumeBytes_k (m : Nat) : (s.consumeBytes m).k = s.k := rfl
@[simp] theorem State.consumeBytes_nch (m : Nat) : (s.consumeBytes m).nch = s.nch := rfl
@[simp] theorem State.consumeBytes_acc (m : Nat) : (s.consumeBytes m).acc = BitVec.ofNat 56 (s.acc.toNat + m) := rfl
@[simp] theorem State.consumeBytes_inputs (m : Nat) : (s.consumeBytes m).inputs = s.inputs := rfl
@[simp] theorem State.consumeBytes_log (m : Nat) : (s.consumeBytes m).log = s.log := rfl
@[simp] theorem State.consumeBytes_cap (m : Nat) : (s.consumeBytes m).cap = s.cap := rfl

/-! ### consumeChunk -/
@[simp] theorem State.consumeChunk_cfg : (s.consumeChunk).cfg = s.cfg := rfl
@[simp] theorem State.consumeChunk_gen : (s.consumeChunk).gen = s.gen := rfl
@[simp] theorem State.consumeChunk_buf : (s.consumeChunk).buf = s.buf := rfl
@[simp] theorem State.consumeChunk_cur : (s.consumeChunk).cur = s.cur + s.nch := rfl
@[simp] theorem State.consumeChunk_fsm : (s.consumeChunk).fsm = s.fsm := rfl
@[simp] theorem State.consumeChunk_rem : (s.consumeChunk).rem = BitVec.ofNat 56 (s.rem.toNat - s.nch) := rfl
@[simp] theorem State.consumeChunk_k : (s.consumeChunk).k = s.k := rfl
@[simp] theorem State.consumeChunk_nch : (s.consumeChunk).nch = s.nch := rfl
@[simp] theorem State.consumeChunk_acc : (s.consumeChunk).acc = BitVec.ofNat 56 (s.acc.toNat + s.nch) := rfl
@[simp] theorem State.consumeChunk_inputs : (s.consumeChunk).inputs = s.inputs := rfl
@[simp] theorem State.consumeChunk_log : (s.consumeChunk).log = s.log := rfl
@[simp] theorem State.consumeChunk_cap : (s.consumeChunk).cap = s.cap := rfl

/-! ### The host's move -/

@[simp] theorem State.hostInput_cons (i : HostInput) (l : List HostInput) :
    (s.withInputs (i :: l)).hostInput = i := rfl

@[simp] theorem State.hostInput_present (c : Word) : (s.present c).hostInput = ⟨false, some c, none⟩ := rfl

@[simp] theorem State.withInputs_consumeInput (i : HostInput) (l : List HostInput) :
    (s.withInputs (i :: l)).consumeInput = s.withInputs l := rfl

end Sys2Proof.Machine
end

