-- ==== Sys2Proof/Laws/Counters.lean ====
section
/-! SUPPORT. The widths of the counters (00_scope R11): what a least width is, and that a value in its range survives it. -/

namespace Sys2Proof

/-- `leastWidth n` is the least width that holds `n`. -/
theorem leastWidth_le_iff (n w : Nat) : leastWidth n ≤ w ↔ n < 2 ^ w := by
  unfold leastWidth
  split
  · rename_i h
    subst h
    simp
  · rename_i h
    rw [Nat.succ_le_iff, Nat.log2_lt h]

/-- Every value of `0 .. n` fits `leastWidth n` bits. -/
theorem ofNat_leastWidth_toNat {v n : Nat} (h : v ≤ n) : (BitVec.ofNat (leastWidth n) v).toNat = v := by
  rw [BitVec.toNat_ofNat]
  exact Nat.mod_eq_of_lt (Nat.lt_of_le_of_lt h ((leastWidth_le_iff n _).mp (Nat.le_refl _)))

end Sys2Proof
end

