-- ==== Sys2Proof/Laws/Decode.lean ====
section
/-! SUPPORT. Decoding: the fields of a word built from fields, and everything `decode` can answer. -/

namespace Sys2Proof

/-- A word built from its fields, as a number: `OP * 2^56 + LEN`. -/
theorem commandWord_toNat (op : BitVec 8) (len : Len) :
    (commandWord op len).toNat = op.toNat * 2 ^ 56 + len.toNat := by
  unfold commandWord
  rw [BitVec.toNat_append, ← Nat.shiftLeft_add_eq_or_of_lt len.isLt, Nat.shiftLeft_eq]

/-- OP as a number: the word divided by 2^56. -/
theorem opField_toNat (c : Word) : (opField c).toNat = c.toNat / 2 ^ 56 := by
  have h := c.isLt
  simp only [opField, BitVec.extractLsb'_toNat, Nat.shiftRight_eq_div_pow]
  omega

/-- LEN as a number: the word modulo 2^56. -/
theorem lenField_toNat (c : Word) : (lenField c).toNat = c.toNat % 2 ^ 56 := by
  simp [lenField, BitVec.extractLsb'_toNat]

@[simp] theorem opField_commandWord (op : BitVec 8) (len : Len) : opField (commandWord op len) = op := by
  apply BitVec.eq_of_toNat_eq
  have h := len.isLt
  rw [opField_toNat, commandWord_toNat]
  omega

@[simp] theorem lenField_commandWord (op : BitVec 8) (len : Len) : lenField (commandWord op len) = len := by
  apply BitVec.eq_of_toNat_eq
  have h := len.isLt
  rw [lenField_toNat, commandWord_toNat]
  omega

/-- A word is its two fields. -/
theorem commandWord_fields (c : Word) : commandWord (opField c) (lenField c) = c := by
  apply BitVec.eq_of_toNat_eq
  rw [commandWord_toNat, opField_toNat, lenField_toNat]
  omega

/-- Two words are equal when their fields are. -/
theorem word_ext {c d : Word} (ho : opField c = opField d) (hl : lenField c = lenField d) : c = d := by
  rw [← commandWord_fields c, ← commandWord_fields d, ho, hl]

/-- Masking a word with the OP mask leaves its OP over a zero LEN. -/
theorem and_opMask (c : Word) : c &&& 0xFF00000000000000#64 = commandWord (opField c) 0#56 := by
  have hn : (c &&& 0xFF00000000000000#64).toNat = c.toNat / 2 ^ 56 * 2 ^ 56 := by
    have hlow : c.toNat &&& (2 ^ 56 - 1) = c.toNat % 2 ^ 56 := Nat.and_two_pow_sub_one_eq_mod ..
    have hdis : (c &&& 0xFF00000000000000#64) + (c &&& 0x00FFFFFFFFFFFFFF#64) = c := by
      have hor : (c &&& 0xFF00000000000000#64) ||| (c &&& 0x00FFFFFFFFFFFFFF#64) = c := by
        rw [← BitVec.and_or_distrib_left]
        have : (0xFF00000000000000#64 : Word) ||| 0x00FFFFFFFFFFFFFF#64 = BitVec.allOnes 64 := by decide
        rw [this, BitVec.and_allOnes]
      have hz : (c &&& 0xFF00000000000000#64) &&& (c &&& 0x00FFFFFFFFFFFFFF#64) = 0#64 := by
        have : (0xFF00000000000000#64 : Word) &&& 0x00FFFFFFFFFFFFFF#64 = 0#64 := by decide
        rw [BitVec.and_assoc, ← BitVec.and_assoc _ c, BitVec.and_comm _ c, BitVec.and_assoc c, this]
        simp
      rw [BitVec.add_eq_or_of_and_eq_zero _ _ hz, hor]
    have hle : (c &&& 0xFF00000000000000#64).toNat ≤ c.toNat := by
      rw [BitVec.toNat_and]; exact Nat.and_le_left
    have hsum := congrArg BitVec.toNat hdis
    have hl2 : (c &&& 0x00FFFFFFFFFFFFFF#64).toNat = c.toNat % 2 ^ 56 := by
      rw [BitVec.toNat_and, ← hlow]; rfl
    rw [BitVec.toNat_add, hl2] at hsum
    have := c.isLt
    omega
  apply BitVec.eq_of_toNat_eq
  rw [hn, commandWord_toNat, opField_toNat]
  simp

/-- Everything `decode` can answer, with the fields that make it so (30_encoding R57). -/
theorem decode_cases (c : Word) :
    (opField c = 0x01#8 ∧ lenField c = 0#56 ∧ decode c = .instr .seed) ∨
    (opField c = 0x02#8 ∧ lenField c = 0#56 ∧ decode c = .instr .next) ∨
    (opField c = 0x03#8 ∧ decode c = .instr (.read (lenField c))) ∨
    (opField c = 0x04#8 ∧ decode c = .instr .write) ∨
    ((opField c = 0x01#8 ∨ opField c = 0x02#8) ∧ lenField c ≠ 0#56 ∧
      decode c = .illegal (.reservedLen (opField c) (lenField c))) ∨
    (opField c ≠ 0x01#8 ∧ opField c ≠ 0x02#8 ∧ opField c ≠ 0x03#8 ∧ opField c ≠ 0x04#8 ∧
      decode c = .illegal (.reservedOpcode (opField c))) := by
  unfold decode
  by_cases h1 : opField c = 0x01#8
  · by_cases hl : lenField c = 0#56 <;> simp [h1, hl]
  by_cases h2 : opField c = 0x02#8
  · by_cases hl : lenField c = 0#56 <;> simp [h2, hl]
  by_cases h3 : opField c = 0x03#8
  · simp [h3]
  by_cases h4 : opField c = 0x04#8
  · simp [h4]
  simp [h1, h2, h3, h4]

/-- The rows with a full mask match one word. -/
theorem hits_full (m : Mnemonic) (b c : Word) :
    (OpcodeRow.mk m b 0xFFFFFFFFFFFFFFFF#64).hits c = decide (c = b) := by
  have h : (0xFFFFFFFFFFFFFFFF#64 : Word) = BitVec.allOnes 64 := by decide
  simp only [OpcodeRow.hits, h, BitVec.and_allOnes]
  rfl

/-- The rows with the OP mask match by OP. -/
theorem hits_op (m : Mnemonic) (op : BitVec 8) (c : Word) :
    (OpcodeRow.mk m (commandWord op 0#56) 0xFF00000000000000#64).hits c = decide (opField c = op) := by
  simp only [OpcodeRow.hits, and_opMask]
  by_cases h : opField c = op
  · simp [h]
  · have : commandWord (opField c) 0#56 ≠ commandWord op 0#56 := by
      intro e
      have := congrArg opField e
      simp only [opField_commandWord] at this
      exact h this
    simp [h, this]

/-- The rows of the table a word matches, by its fields. -/
theorem matchingRows_eq (c : Word) :
    matchingRows c =
      (if opField c = 0x01#8 ∧ lenField c = 0#56 then [⟨.SEED, 0x0100000000000000#64, 0xFFFFFFFFFFFFFFFF#64⟩] else []) ++
      (if opField c = 0x02#8 ∧ lenField c = 0#56 then [⟨.NEXT, 0x0200000000000000#64, 0xFFFFFFFFFFFFFFFF#64⟩] else []) ++
      (if opField c = 0x03#8 then [⟨.READ, 0x0300000000000000#64, 0xFF00000000000000#64⟩] else []) ++
      (if opField c = 0x04#8 then [⟨.WRITE, 0x0400000000000000#64, 0xFF00000000000000#64⟩] else []) := by
  have hw : ∀ op : BitVec 8, (c = commandWord op 0#56 ↔ opField c = op ∧ lenField c = 0#56) := fun op =>
    ⟨fun e => by subst e; simp, fun ⟨h1, h2⟩ => word_ext (by simpa using h1) (by simpa using h2)⟩
  have e1 := hits_full .SEED 0x0100000000000000#64 c
  have e2 := hits_full .NEXT 0x0200000000000000#64 c
  have e3 : (OpcodeRow.mk .READ 0x0300000000000000#64 0xFF00000000000000#64).hits c = decide (opField c = 0x03#8) :=
    hits_op .READ 0x03#8 c
  have e4 : (OpcodeRow.mk .WRITE 0x0400000000000000#64 0xFF00000000000000#64).hits c = decide (opField c = 0x04#8) :=
    hits_op .WRITE 0x04#8 c
  rw [show (0x0100000000000000#64 : Word) = commandWord 0x01#8 0#56 by decide] at e1
  rw [show (0x0200000000000000#64 : Word) = commandWord 0x02#8 0#56 by decide] at e2
  simp only [hw] at e1 e2
  simp only [matchingRows, opcodeTable, List.filter_cons, List.filter_nil, e3, e4,
    show (0x0100000000000000#64 : Word) = commandWord 0x01#8 0#56 by decide,
    show (0x0200000000000000#64 : Word) = commandWord 0x02#8 0#56 by decide, e1, e2, decide_eq_true_eq]
  split_ifs <;> rfl

end Sys2Proof
end

