-- ==== Sys2Proof/Laws/Engine.lean ====
section
/-! SUPPORT. The engine: reading a word after writing one, the seed, and everything one engine step does. -/

namespace Sys2Proof.Machine

@[simp] theorem GeneratorState.setWord_p (g : GeneratorState) (i : BitVec 4) (v : Word) : (g.setWord i v).p = g.p := rfl

/-- Reading word `j` after writing word `i`. -/
theorem GeneratorState.word_setWord (g : GeneratorState) (i j : BitVec 4) (v : Word) :
    (g.setWord i v).word j = if j = i then v else g.word j := by
  simp only [GeneratorState.word, GeneratorState.setWord, Vector.getElem_set]
  by_cases h : j = i
  · simp [h]
  · have : i.toNat ≠ j.toNat := fun e => h (BitVec.eq_of_toNat_eq e.symm)
    simp [h, this]

/-- The words of the seed: `S[i] = i + 1` (40_engine R68). -/
theorem GeneratorState.word_seed (i : BitVec 4) : (GeneratorState.seed.word i).toNat = i.toNat + 1 := by
  have h : i.toNat < 16 := i.isLt
  simp only [GeneratorState.word, GeneratorState.seed, Vector.getElem_ofFn, BitVec.toNat_ofNat]
  exact Nat.mod_eq_of_lt (by omega)

@[simp] theorem GeneratorState.seed_p : GeneratorState.seed.p = 0#4 := rfl

/-- The word an engine step writes, from the words at the old and the new pointer (40_engine R76). -/
def nextWord (s0 s1 : Word) : Word :=
  (s0 ^^^ (s0 >>> 30)) ^^^ ((s1 ^^^ (s1 <<< 31)) ^^^ ((s1 ^^^ (s1 <<< 31)) >>> 11))

/-- The same word in the form of R76. -/
theorem nextWord_eq (s0 s1 : Word) :
    nextWord s0 s1 = (s1 ^^^ (s1 <<< 31)) ^^^ ((s1 ^^^ (s1 <<< 31)) >>> 11) ^^^ s0 ^^^ (s0 >>> 30) := by
  rw [nextWord, BitVec.xor_comm, ← BitVec.xor_assoc]

/-- The old pointer is never the new one. -/
theorem ptr_ne_succ (p : BitVec 4) : p ≠ p + 1#4 := by
  revert p; decide

@[simp] theorem engineStep_p (g : GeneratorState) : (engineStep g).1.p = g.p + 1#4 := rfl

/-- Every word after an engine step: the new one at the new pointer, the old ones elsewhere (40_engine R71). -/
theorem engineStep_word (g : GeneratorState) (i : BitVec 4) :
    (engineStep g).1.word i =
      if i = g.p + 1#4 then nextWord (g.word g.p) (g.word (g.p + 1#4)) else g.word i := by
  simp only [engineStep]
  rw [GeneratorState.word_setWord]
  rfl

/-- The word an engine step returns: the written word times MULT (40_engine R70). -/
theorem engineStep_output (g : GeneratorState) :
    (engineStep g).2 = nextWord (g.word g.p) (g.word (g.p + 1#4)) * mult := by
  have h := engineStep_word g (g.p + 1#4)
  rw [if_pos rfl] at h
  rw [← h]; rfl

end Sys2Proof.Machine
end

