-- ==== Sys2Proof/Laws/Memory.lean ====
section
/-! SUPPORT. The scratch buffer: reading after writing, the canonical form, and what MemRead and MemWrite can do. -/

namespace Sys2Proof.Machine

@[simp] theorem Memory.byteAt_nil (a : Nat) : Memory.byteAt [] a = none := rfl

/-- Reading after writing one byte: the byte written at its offset, the byte before elsewhere. -/
theorem Memory.byteAt_put (m : Memory) (a : Nat) (b : Byte) (x : Nat) :
    Memory.byteAt (Memory.put m a b) x = if x = a then some b else Memory.byteAt m x := by
  induction m with
  | nil => simp [Memory.put, Memory.byteAt, eq_comm]
  | cons c m ih =>
    obtain ⟨y, v⟩ := c
    simp only [Memory.put]
    split
    · simp [Memory.byteAt, eq_comm]
    · split
      · subst_vars
        by_cases h : x = y <;> simp [Memory.byteAt, h, eq_comm]
      · rename_i h1 h2
        simp only [Memory.byteAt, ih]
        by_cases h : y = x
        · subst h; simp [Ne.symm h2]
        · simp [h]

/-- Reading after writing a run of bytes. -/
theorem Memory.byteAt_putBytes (bs : List Byte) (m : Memory) (off x : Nat) :
    Memory.byteAt (Memory.putBytes m off bs) x =
      if off ≤ x ∧ x < off + bs.length then bs[x - off]? else Memory.byteAt m x := by
  induction bs generalizing m off with
  | nil => simp only [Memory.putBytes, List.length_nil]; split <;> first | omega | rfl
  | cons b bs ih =>
    rw [Memory.putBytes, ih, Memory.byteAt_put]
    simp only [List.length_cons]
    by_cases hx : x = off
    · subst hx; simp
    · by_cases h : off + 1 ≤ x ∧ x < off + 1 + bs.length
      · have hs : x - off = (x - (off + 1)) + 1 := by omega
        rw [if_pos h, if_pos (by omega), hs, List.getElem?_cons_succ]
      · rw [if_neg h, if_neg hx, if_neg (by omega)]

/-- A written byte's cell, or an old cell. -/
theorem Memory.mem_put {m : Memory} {a : Nat} {b : Byte} {c : Host.Cell} (h : c ∈ Memory.put m a b) :
    c = (a, b) ∨ c ∈ m := by
  induction m with
  | nil => exact .inl (by simpa [Memory.put] using h)
  | cons d m ih =>
    obtain ⟨y, v⟩ := d
    simp only [Memory.put] at h
    split at h
    · simpa using h
    · split at h
      · rcases List.mem_cons.mp h with h | h
        · exact .inl h
        · exact .inr (List.mem_cons_of_mem _ h)
      · rcases List.mem_cons.mp h with h | h
        · exact .inr (h ▸ List.mem_cons_self ..)
        · exact (ih h).imp id (List.mem_cons_of_mem _)

/-- Writing one byte keeps the canonical form. -/
theorem Memory.put_wf {m : Memory} (a : Nat) (b : Byte) (h : Memory.wf m) : Memory.wf (Memory.put m a b) := by
  induction m with
  | nil => simp [Memory.put]
  | cons c m ih =>
    obtain ⟨y, v⟩ := c
    obtain ⟨hy, hm⟩ := List.pairwise_cons.mp h
    simp only [Memory.put]
    split
    · rename_i hlt
      refine List.pairwise_cons.mpr ⟨fun d hd => ?_, h⟩
      rcases List.mem_cons.mp hd with rfl | hd
      · exact hlt
      · exact Nat.lt_trans hlt (hy d hd)
    · split
      · subst_vars; exact List.pairwise_cons.mpr ⟨hy, hm⟩
      · refine List.pairwise_cons.mpr ⟨fun d hd => ?_, ih hm⟩
        rcases Memory.mem_put hd with rfl | hd
        · simp only; omega
        · exact hy d hd

/-- Writing a run of bytes keeps the canonical form. -/
theorem Memory.putBytes_wf (bs : List Byte) {m : Memory} (off : Nat) (h : Memory.wf m) :
    Memory.wf (Memory.putBytes m off bs) := by
  induction bs generalizing m off with
  | nil => exact h
  | cons b bs ih => exact ih (off + 1) (Memory.put_wf off b h)

/-- Writing a run of bytes below `cap` keeps every cell below `cap`. -/
theorem Memory.putBytes_within (bs : List Byte) {m : Memory} {off cap : Nat} (h : Memory.within m cap)
    (hb : off + bs.length ≤ cap) : Memory.within (Memory.putBytes m off bs) cap := by
  induction bs generalizing m off with
  | nil => exact h
  | cons b bs ih =>
    simp only [List.length_cons] at hb
    refine ih (fun c hc => ?_) (by omega)
    rcases Memory.mem_put hc with rfl | hc
    · simp only; omega
    · exact h c hc

@[simp] theorem bytesBO_length (bo : ByteOrder) (w : Word) : (bytesBO bo w).length = 8 := by
  cases bo <;> rfl

/-- What MemWrite can do: inside BUF it writes the 8 bytes of the word, outside it faults. -/
theorem memWrite_ok {cfg : Config} {m m' : Memory} {off : Nat} {w : Word} :
    memWrite cfg m off w = .ok m' ↔
      off + 8 ≤ cfg.cap ∧ m' = Memory.putBytes m off (bytesBO cfg.byteOrder w) := by
  unfold memWrite
  split <;> simp [*, eq_comm]

/-- A run of known bytes reads as exactly those bytes. -/
theorem Memory.bytesFrom_ok {m : Memory} {n : Nat} {off : Nat} {bs : List Byte} :
    Memory.bytesFrom m off n = .ok bs ↔
      bs.length = n ∧ ∀ j, j < n → ∃ b, bs[j]? = some b ∧ Memory.byteAt m (off + j) = some b := by
  induction n generalizing off bs with
  | zero => cases bs <;> simp [Memory.bytesFrom]
  | succ n ih =>
    simp only [Memory.bytesFrom]
    constructor
    · intro h
      split at h
      · cases h
      · rename_i b hb
        split at h
        · cases h
        · rename_i bs' hbs
          cases h
          obtain ⟨hl, hj⟩ := ih.mp hbs
          refine ⟨by simp [hl], fun j hjn => ?_⟩
          cases j with
          | zero => exact ⟨b, rfl, hb⟩
          | succ j =>
            obtain ⟨b', h1, h2⟩ := hj j (by omega)
            exact ⟨b', by simpa using h1, by rw [← h2]; congr 1; omega⟩
    · rintro ⟨hl, hj⟩
      cases bs with
      | nil => simp at hl
      | cons b bs =>
        obtain ⟨b0, h1, h2⟩ := hj 0 (by omega)
        have : b = b0 := by simpa using h1
        subst this
        simp only [Nat.add_zero] at h2
        have hrest : Memory.bytesFrom m (off + 1) n = .ok bs := by
          refine ih.mpr ⟨by simpa using hl, fun j hjn => ?_⟩
          obtain ⟨b', h3, h4⟩ := hj (j + 1) (by omega)
          exact ⟨b', by simpa using h3, by rw [← h4]; congr 1; omega⟩
        simp [h2, hrest]

/-- MemRead of known bytes inside BUF answers them. -/
theorem memRead_known {cfg : Config} {m : Memory} {off n : Nat} (hc : off + n ≤ cfg.cap)
    (hk : Memory.Known m off (off + n)) : ∃ bs, memRead cfg m off n = .ok bs := by
  have main : ∀ (n off : Nat), Memory.Known m off (off + n) → ∃ bs, Memory.bytesFrom m off n = .ok bs := by
    intro n
    induction n with
    | zero => exact fun off _ => ⟨[], rfl⟩
    | succ n ih =>
      intro off hk
      obtain ⟨b, hb⟩ := Option.isSome_iff_exists.mp (hk off (by omega) (by omega))
      obtain ⟨bs, hbs⟩ := ih (off + 1) (fun a h1 h2 => hk a (by omega) (by omega))
      exact ⟨b :: bs, by simp [Memory.bytesFrom, hb, hbs]⟩
  obtain ⟨bs, h⟩ := main n off hk
  exact ⟨bs, by simp [memRead, hc, h]⟩

/-- What MemRead answers when it answers: `n` bytes, each the byte of BUF at its offset, inside BUF. -/
theorem memRead_ok {cfg : Config} {m : Memory} {off n : Nat} {bs : List Byte}
    (h : memRead cfg m off n = .ok bs) :
    off + n ≤ cfg.cap ∧ bs.length = n ∧ ∀ j, j < n → bs[j]? = Memory.byteAt m (off + j) := by
  unfold memRead at h
  split at h
  · obtain ⟨hl, hj⟩ := Memory.bytesFrom_ok.mp h
    refine ⟨by assumption, hl, fun j hjn => ?_⟩
    obtain ⟨b, h1, h2⟩ := hj j hjn
    rw [h1, h2]
  · cases h

end Sys2Proof.Machine
end

