-- ==== Sys2Proof/Laws/Observe.lean ====
section
/-! SUPPORT. Reading the record of the interface event by event. -/

namespace Sys2Proof.Machine

@[simp] theorem acceptedWords_nil : acceptedWords [] = [] := rfl
@[simp] theorem responsesIn_nil : responsesIn [] = [] := rfl
@[simp] theorem answersIn_nil : answersIn [] = [] := rfl
@[simp] theorem deliveredIn_nil : deliveredIn [] = [] := rfl
@[simp] theorem abortsIn_nil : abortsIn [] = 0 := rfl

@[simp] theorem acceptedWords_append (l m : List Event) :
    acceptedWords (l ++ m) = acceptedWords l ++ acceptedWords m := by
  simp [acceptedWords]

@[simp] theorem responsesIn_append (l m : List Event) : responsesIn (l ++ m) = responsesIn l ++ responsesIn m := by
  simp [responsesIn]

@[simp] theorem answersIn_append (l m : List Event) : answersIn (l ++ m) = answersIn l ++ answersIn m := by
  simp [answersIn]

@[simp] theorem deliveredIn_append (l m : List Event) : deliveredIn (l ++ m) = deliveredIn l ++ deliveredIn m := by
  simp [deliveredIn]

@[simp] theorem abortsIn_append (l m : List Event) : abortsIn (l ++ m) = abortsIn l + abortsIn m := by
  simp [abortsIn]

/-! ### A word accepted -/

@[simp] theorem acceptedWords_accepted (c : Word) (l : List Event) :
    acceptedWords (.accepted c :: l) = c :: acceptedWords l := rfl
@[simp] theorem responsesIn_accepted (c : Word) (l : List Event) : responsesIn (.accepted c :: l) = responsesIn l := rfl
@[simp] theorem answersIn_accepted (c : Word) (l : List Event) : answersIn (.accepted c :: l) = answersIn l := rfl
@[simp] theorem deliveredIn_accepted (c : Word) (l : List Event) : deliveredIn (.accepted c :: l) = deliveredIn l := rfl
@[simp] theorem abortsIn_accepted (c : Word) (l : List Event) : abortsIn (.accepted c :: l) = abortsIn l := by
  simp [abortsIn, Event.isAbort]

/-! ### A response -/

@[simp] theorem acceptedWords_responded (r : Response) (l : List Event) :
    acceptedWords (.responded r :: l) = acceptedWords l := rfl
@[simp] theorem responsesIn_responded (r : Response) (l : List Event) :
    responsesIn (.responded r :: l) = r :: responsesIn l := rfl
@[simp] theorem answersIn_responded (r : Response) (l : List Event) : answersIn (.responded r :: l) = answersIn l := rfl
@[simp] theorem deliveredIn_responded (r : Response) (l : List Event) :
    deliveredIn (.responded r :: l) = deliveredIn l := rfl
@[simp] theorem abortsIn_responded (r : Response) (l : List Event) : abortsIn (.responded r :: l) = abortsIn l := by
  simp [abortsIn, Event.isAbort]

/-! ### A chunk offered and answered -/

@[simp] theorem acceptedWords_offered (bs : List Byte) (a : Answer) (l : List Event) :
    acceptedWords (.offered bs a :: l) = acceptedWords l := rfl
@[simp] theorem responsesIn_offered (bs : List Byte) (a : Answer) (l : List Event) :
    responsesIn (.offered bs a :: l) = responsesIn l := rfl
@[simp] theorem answersIn_offered (bs : List Byte) (a : Answer) (l : List Event) :
    answersIn (.offered bs a :: l) = a :: answersIn l := rfl
@[simp] theorem deliveredIn_acked (bs : List Byte) (l : List Event) :
    deliveredIn (.offered bs .ack :: l) = bs ++ deliveredIn l := rfl
@[simp] theorem deliveredIn_faulted (bs : List Byte) (l : List Event) :
    deliveredIn (.offered bs .fault :: l) = deliveredIn l := rfl
@[simp] theorem abortsIn_offered (bs : List Byte) (a : Answer) (l : List Event) :
    abortsIn (.offered bs a :: l) = abortsIn l := by
  simp [abortsIn, Event.isAbort]

/-! ### A reset -/

@[simp] theorem acceptedWords_reset (b : Bool) (l : List Event) :
    acceptedWords (.resetTaken b :: l) = acceptedWords l := rfl
@[simp] theorem responsesIn_reset (b : Bool) (l : List Event) : responsesIn (.resetTaken b :: l) = responsesIn l := rfl
@[simp] theorem answersIn_reset (b : Bool) (l : List Event) : answersIn (.resetTaken b :: l) = answersIn l := rfl
@[simp] theorem deliveredIn_reset (b : Bool) (l : List Event) : deliveredIn (.resetTaken b :: l) = deliveredIn l := rfl
@[simp] theorem abortsIn_reset (b : Bool) (l : List Event) :
    abortsIn (.resetTaken b :: l) = abortsIn l + (if b then 1 else 0) := by
  cases b <;> simp [abortsIn, Event.isAbort, List.countP_cons]

/-! ### Commands accepted, resets, results of NEXT -/

@[simp] theorem acceptsOf_nil (i : Instr) : acceptsOf i [] = 0 := rfl
@[simp] theorem resetsIn_nil : resetsIn [] = 0 := rfl

@[simp] theorem acceptsOf_append (i : Instr) (l m : List Event) : acceptsOf i (l ++ m) = acceptsOf i l + acceptsOf i m := by
  simp [acceptsOf]

@[simp] theorem resetsIn_append (l m : List Event) : resetsIn (l ++ m) = resetsIn l + resetsIn m := by
  simp [resetsIn]

@[simp] theorem acceptsOf_accepted (i : Instr) (c : Word) (l : List Event) :
    acceptsOf i (.accepted c :: l) = acceptsOf i l + (if decode c = .instr i then 1 else 0) := by
  simp [acceptsOf, Event.accepts, List.countP_cons]

@[simp] theorem acceptsOf_responded (i : Instr) (r : Response) (l : List Event) :
    acceptsOf i (.responded r :: l) = acceptsOf i l := by
  simp [acceptsOf, Event.accepts]

@[simp] theorem acceptsOf_offered (i : Instr) (bs : List Byte) (a : Answer) (l : List Event) :
    acceptsOf i (.offered bs a :: l) = acceptsOf i l := by
  simp [acceptsOf, Event.accepts]

@[simp] theorem acceptsOf_reset (i : Instr) (b : Bool) (l : List Event) :
    acceptsOf i (.resetTaken b :: l) = acceptsOf i l := by
  simp [acceptsOf, Event.accepts]

@[simp] theorem resetsIn_accepted (c : Word) (l : List Event) : resetsIn (.accepted c :: l) = resetsIn l := by
  simp [resetsIn, Event.isReset]

@[simp] theorem resetsIn_responded (r : Response) (l : List Event) : resetsIn (.responded r :: l) = resetsIn l := by
  simp [resetsIn, Event.isReset]

@[simp] theorem resetsIn_offered (bs : List Byte) (a : Answer) (l : List Event) :
    resetsIn (.offered bs a :: l) = resetsIn l := by
  simp [resetsIn, Event.isReset]

@[simp] theorem resetsIn_reset (b : Bool) (l : List Event) : resetsIn (.resetTaken b :: l) = resetsIn l + 1 := by
  simp [resetsIn, List.countP_cons, Event.isReset]

@[simp] theorem nextResultsIn_nil : nextResultsIn [] = [] := rfl

/-- A NEXT and its response, which stand together in the record. -/
theorem nextResultsIn_next {c : Word} (h : decode c = .instr .next) (r : Response) (l : List Event) :
    nextResultsIn (.accepted c :: .responded r :: l) = r.result :: nextResultsIn l := by
  simp [nextResultsIn, nextResultsFrom, h]

/-- The acceptance of any other word. -/
theorem nextResultsIn_accepted {c : Word} (h : decode c ≠ .instr .next) (l : List Event) :
    nextResultsIn (.accepted c :: l) = nextResultsIn l := by
  simp [nextResultsIn, nextResultsFrom, h]

@[simp] theorem nextResultsIn_responded (r : Response) (l : List Event) :
    nextResultsIn (.responded r :: l) = nextResultsIn l := by
  simp [nextResultsIn, nextResultsFrom]

@[simp] theorem nextResultsIn_offered (bs : List Byte) (a : Answer) (l : List Event) :
    nextResultsIn (.offered bs a :: l) = nextResultsIn l := rfl

@[simp] theorem nextResultsIn_reset (b : Bool) (l : List Event) :
    nextResultsIn (.resetTaken b :: l) = nextResultsIn l := rfl

end Sys2Proof.Machine
end

