-- ==== Sys2Proof/Laws/PerInstr.lean ====
section
/-! SUPPORT. Statements made per command: a command's word belongs to the command's own row of the opcode table, and to no
other (opcode_table.json, 30_encoding R57). -/

namespace Sys2Proof.Laws.TableRow

/-- The word of `i` matches exactly one row of the opcode table, the row with `i`'s mnemonic. -/
def Statement (i : Instr) : Prop := (matchingRows (encode i)).map OpcodeRow.mnemonic = [i.mnemonic]

theorem seed : Statement .seed := by
  unfold Statement; decide

theorem next : Statement .next := by
  unfold Statement; decide

theorem read (n : Len) : Statement (.read n) := by
  simp [Statement, matchingRows_eq, encode, Instr.mnemonic]

theorem write : Statement .write := by
  unfold Statement; decide

end Sys2Proof.Laws.TableRow
end

