-- ==== Sys2Proof/Laws/Step.lean ====
section
/-! SUPPORT. What a step can do, said once: the equation of each row of 41_stream_buffer R84, and one inversion lemma
for the whole transition relation. -/

namespace Sys2Proof.Machine

/-- Reset takes effect whatever else the host does (60_exceptions R113). -/
theorem step_reset {s : State} (h : s.hostInput.reset = true) : step s = .next s.consumeInput.takeReset := by
  simp [step, blockStep, h]

/-- Without reset, a step is the row of the current `fsm`. -/
theorem step_fsm {s : State} (h : s.hostInput.reset = false) : step s = fsmStep s.hostInput s.consumeInput := by
  simp [step, blockStep, h]

theorem fsmStep_idle_none {i : HostInput} {s : State} (hf : s.fsm = .idle) (hw : i.word = none) :
    fsmStep i s = .next s := by
  simp [fsmStep, hf, hw]

theorem fsmStep_idle_some {i : HostInput} {s : State} {c : Word} (hf : s.fsm = .idle) (hw : i.word = some c) :
    fsmStep i s = accept c s := by
  simp [fsmStep, hf, hw]

theorem fsmStep_readLoop {i : HostInput} {s : State} (hf : s.fsm = .readLoop) : fsmStep i s = readLoopStep s := by
  simp [fsmStep, hf]

theorem fsmStep_refill {i : HostInput} {s : State} (hf : s.fsm = .refill) : fsmStep i s = refillStep s := by
  simp [fsmStep, hf]

theorem fsmStep_xfer_none {i : HostInput} {s : State} (hf : s.fsm = .xfer) (ha : i.ans = none) :
    fsmStep i s = .next s := by
  simp [fsmStep, hf, ha]

theorem fsmStep_xfer_some {i : HostInput} {s : State} {a : Answer} (hf : s.fsm = .xfer) (ha : i.ans = some a) :
    fsmStep i s = xferStep s a := by
  simp [fsmStep, hf, ha]

/-- The word a refill step writes (41_stream_buffer R85). -/
theorem refillWord_eq {s : State} (h : s.k < s.cfg.capWords) :
    refillWord s = .next (((s.withGen (engineStep s.gen).1).withBuf
      (Memory.putBytes s.buf (8 * s.k) (bytesBO s.cfg.byteOrder (engineStep s.gen).2))).withK (s.k + 1)) := by
  have hc : 8 * s.k + 8 ≤ s.cfg.cap := by unfold Config.cap; omega
  simp [refillWord, memWrite, hc]

@[simp] theorem answerChunk_ack (s : State) (bs : List Byte) :
    answerChunk s bs .ack = .next (((s.pushLog (.offered bs .ack)).consumeChunk).withFsm .readLoop) := rfl

@[simp] theorem answerChunk_fault (s : State) (bs : List Byte) :
    answerChunk s bs .fault = .next ((s.pushLog (.offered bs .fault)).raise .transferFault s.acc) := rfl

@[simp] theorem exec_seed (s : State) :
    exec .seed s = .next ((s.seedEngine.withCur s.cap).respond .ok 0#64 0#56) := rfl

@[simp] theorem exec_next (s : State) :
    exec .next s = .next ((s.withGen (engineStep s.gen).1).respond .ok (engineStep s.gen).2 0#56) := rfl

@[simp] theorem exec_read (n : Len) (s : State) : exec (.read n) s = .next ((s.loadRead n).withFsm .readLoop) := rfl

@[simp] theorem exec_write (s : State) : exec .write s = .next (s.raise .unsupportedOperation 0#56) := rfl

/-- Accepting a word that decodes to a command. -/
theorem accept_instr {c : Word} {i : Instr} (s : State) (h : decode c = .instr i) :
    accept c s = exec i (s.logAccepted c) := by
  rw [accept, h]

/-- Accepting a word that decodes to ILLEGAL. -/
theorem accept_illegal {c : Word} {x : IllegalCause} (s : State) (h : decode c = .illegal x) :
    accept c s = .next ((s.logAccepted c).raise .illegalCommand 0#56) := by
  rw [accept, h]; rfl

/-! ## The rows of R84 as equations of `step` -/

theorem step_idle_quiet {s : State} (hr : s.hostInput.reset = false) (hf : s.fsm = .idle)
    (hw : s.hostInput.word = none) : step s = .next s.consumeInput := by
  rw [step_fsm hr, fsmStep_idle_none (s := s.consumeInput) hf hw]

theorem step_accept {s : State} {c : Word} (hr : s.hostInput.reset = false) (hf : s.fsm = .idle)
    (hw : s.hostInput.word = some c) : step s = accept c s.consumeInput := by
  rw [step_fsm hr, fsmStep_idle_some (s := s.consumeInput) hf hw]

theorem step_readLoop_done {s : State} (hr : s.hostInput.reset = false) (hf : s.fsm = .readLoop)
    (h : s.rem = 0#56) : step s = .next ((s.consumeInput.respond .ok 0#64 s.acc).withFsm .idle) := by
  rw [step_fsm hr, fsmStep_readLoop (s := s.consumeInput) hf, readLoopStep, if_pos (show s.consumeInput.rem = 0#56 from h)]; rfl

theorem step_readLoop_refill {s : State} (hr : s.hostInput.reset = false) (hf : s.fsm = .readLoop)
    (h : s.rem ≠ 0#56) (hc : s.cur = s.cap) : step s = .next ((s.consumeInput.withK 0).withFsm .refill) := by
  rw [step_fsm hr, fsmStep_readLoop (s := s.consumeInput) hf, readLoopStep, if_neg (show ¬ s.consumeInput.rem = 0#56 from h),
    if_pos (show s.consumeInput.cur = s.consumeInput.cap from hc)]

theorem step_readLoop_xfer {s : State} (hr : s.hostInput.reset = false) (hf : s.fsm = .readLoop)
    (h : s.rem ≠ 0#56) (hc : s.cur < s.cap) :
    step s = .next ((s.consumeInput.withNch s.chunkLength).withFsm .xfer) := by
  rw [step_fsm hr, fsmStep_readLoop (s := s.consumeInput) hf, readLoopStep, if_neg (show ¬ s.consumeInput.rem = 0#56 from h),
    if_neg (show ¬ s.consumeInput.cur = s.consumeInput.cap from Nat.ne_of_lt hc),
    if_pos (show s.consumeInput.cur < s.consumeInput.cap from hc)]; rfl

theorem step_refill_word {s : State} (hr : s.hostInput.reset = false) (hf : s.fsm = .refill)
    (hk : s.k < s.cfg.capWords) :
    step s = .next (((s.consumeInput.withGen (engineStep s.gen).1).withBuf
      (Memory.putBytes s.buf (8 * s.k) (bytesBO s.cfg.byteOrder (engineStep s.gen).2))).withK (s.k + 1)) := by
  rw [step_fsm hr, fsmStep_refill (s := s.consumeInput) hf, refillStep, if_pos (show s.consumeInput.k < s.consumeInput.cfg.capWords from hk),
    refillWord_eq (show s.consumeInput.k < s.consumeInput.cfg.capWords from hk)]; rfl

theorem step_refill_end {s : State} (hr : s.hostInput.reset = false) (hf : s.fsm = .refill)
    (hk : s.k = s.cfg.capWords) : step s = .next ((s.consumeInput.withCur 0).withFsm .readLoop) := by
  rw [step_fsm hr, fsmStep_refill (s := s.consumeInput) hf, refillStep,
    if_neg (show ¬ s.consumeInput.k < s.consumeInput.cfg.capWords from Nat.not_lt.mpr (Nat.le_of_eq hk.symm)),
    if_pos (show s.consumeInput.k = s.consumeInput.cfg.capWords from hk)]

theorem step_xfer_waits {s : State} (hr : s.hostInput.reset = false) (hf : s.fsm = .xfer)
    (ha : s.hostInput.ans = none) : step s = .next s.consumeInput := by
  rw [step_fsm hr, fsmStep_xfer_none (s := s.consumeInput) hf ha]

theorem step_xfer_answered {s : State} {a : Answer} {bs : List Byte} (hr : s.hostInput.reset = false)
    (hf : s.fsm = .xfer) (ha : s.hostInput.ans = some a) (h1 : 1 ≤ s.nch) (h2 : s.nch ≤ s.rem.toNat)
    (hm : memRead s.cfg s.buf s.cur s.nch = .ok bs) : step s = answerChunk s.consumeInput bs a := by
  rw [step_fsm hr, fsmStep_xfer_some (s := s.consumeInput) hf ha, xferStep,
    if_pos (show 1 ≤ s.consumeInput.nch ∧ s.consumeInput.nch ≤ s.consumeInput.rem.toNat from ⟨h1, h2⟩)]
  have hm' : memRead s.consumeInput.cfg s.consumeInput.buf s.consumeInput.cur s.consumeInput.nch = .ok bs := hm
  rw [hm']

/-- What XFER does with an answer, when it does anything: the chunk is in bounds and is read, and the answer takes its
effect. -/
theorem xferStep_next {s t : State} {a : Answer} (h : xferStep s a = .next t) :
    1 ≤ s.nch ∧ s.nch ≤ s.rem.toNat ∧
    ∃ bs, memRead s.cfg s.buf s.cur s.nch = .ok bs ∧ answerChunk s bs a = .next t := by
  unfold xferStep at h
  split at h
  · rename_i hb
    split at h
    · cases h
    · exact ⟨hb.1, hb.2, _, by assumption, h⟩
  · cases h

/-- Everything a step can do: the rows of 41_stream_buffer R84, with the condition and the effect of each. `s'` is the
state with the host's move taken. -/
theorem step_cases {s t : State} (h : step s = .next t) :
    (s.hostInput.reset = true ∧ t = s.consumeInput.takeReset) ∨
    (s.hostInput.reset = false ∧
      ((s.fsm = .idle ∧ s.hostInput.word = none ∧ t = s.consumeInput) ∨
       (s.fsm = .idle ∧ ∃ c, s.hostInput.word = some c ∧
         ((∃ i, decode c = .instr i ∧ exec i (s.consumeInput.logAccepted c) = .next t) ∨
          (∃ x, decode c = .illegal x ∧ t = (s.consumeInput.logAccepted c).raise .illegalCommand 0#56))) ∨
       (s.fsm = .readLoop ∧ s.rem = 0#56 ∧ t = (s.consumeInput.respond .ok 0#64 s.acc).withFsm .idle) ∨
       (s.fsm = .readLoop ∧ s.rem ≠ 0#56 ∧ s.cur = s.cap ∧ t = (s.consumeInput.withK 0).withFsm .refill) ∨
       (s.fsm = .readLoop ∧ s.rem ≠ 0#56 ∧ s.cur < s.cap ∧ t = (s.consumeInput.withNch s.chunkLength).withFsm .xfer) ∨
       (s.fsm = .refill ∧ s.k < s.cfg.capWords ∧
         t = ((s.consumeInput.withGen (engineStep s.gen).1).withBuf
           (Memory.putBytes s.buf (8 * s.k) (bytesBO s.cfg.byteOrder (engineStep s.gen).2))).withK (s.k + 1)) ∨
       (s.fsm = .refill ∧ s.k = s.cfg.capWords ∧ t = (s.consumeInput.withCur 0).withFsm .readLoop) ∨
       (s.fsm = .xfer ∧ s.hostInput.ans = none ∧ t = s.consumeInput) ∨
       (s.fsm = .xfer ∧ ∃ a bs, s.hostInput.ans = some a ∧ 1 ≤ s.nch ∧ s.nch ≤ s.rem.toNat ∧
         memRead s.cfg s.buf s.cur s.nch = .ok bs ∧ answerChunk s.consumeInput bs a = .next t))) := by
  cases hr : s.hostInput.reset
  · refine .inr ⟨rfl, ?_⟩
    rw [step_fsm hr] at h
    cases hf : s.fsm
    · cases hw : s.hostInput.word with
      | none =>
        rw [fsmStep_idle_none (by simpa using hf) hw] at h
        cases h; exact .inl ⟨rfl, rfl, rfl⟩
      | some c =>
        rw [fsmStep_idle_some (by simpa using hf) hw] at h
        refine .inr (.inl ⟨rfl, c, rfl, ?_⟩)
        unfold accept at h
        cases hd : decode c with
        | instr i => rw [hd] at h; exact .inl ⟨i, rfl, h⟩
        | illegal x => rw [hd] at h; cases h; exact .inr ⟨x, rfl, rfl⟩
    · rw [fsmStep_readLoop (by simpa using hf)] at h
      unfold readLoopStep at h
      split at h
      · rename_i h1
        cases h; exact .inr (.inr (.inl ⟨rfl, h1, rfl⟩))
      · rename_i h1
        split at h
        · rename_i h2
          cases h; exact .inr (.inr (.inr (.inl ⟨rfl, h1, h2, rfl⟩)))
        · split at h
          · rename_i h3
            cases h; exact .inr (.inr (.inr (.inr (.inl ⟨rfl, h1, h3, rfl⟩))))
          · cases h
    · rw [fsmStep_refill (by simpa using hf)] at h
      unfold refillStep at h
      split at h
      · rename_i hk
        rw [refillWord_eq hk] at h
        cases h
        exact .inr (.inr (.inr (.inr (.inr (.inl ⟨rfl, hk, rfl⟩)))))
      · split at h
        · rename_i hk
          cases h; exact .inr (.inr (.inr (.inr (.inr (.inr (.inl ⟨rfl, hk, rfl⟩))))))
        · cases h
    · cases ha : s.hostInput.ans with
      | none =>
        rw [fsmStep_xfer_none (by simpa using hf) ha] at h
        cases h; exact .inr (.inr (.inr (.inr (.inr (.inr (.inr (.inl ⟨rfl, rfl, rfl⟩)))))))
      | some a =>
        rw [fsmStep_xfer_some (by simpa using hf) ha] at h
        obtain ⟨h1, h2, bs, h3, h4⟩ := xferStep_next h
        exact .inr (.inr (.inr (.inr (.inr (.inr (.inr (.inr ⟨rfl, a, bs, rfl, h1, h2, h3, h4⟩)))))))
  · rw [step_reset hr] at h
    cases h; exact .inl ⟨rfl, rfl⟩

/-! ## Runs -/

@[simp] theorem run_zero (s : State) : run 0 s = .next s := rfl

/-- A run of `n + 1` steps is a step and then `n` more. -/
theorem run_succ_next {n : Nat} {s t : State} (h : step s = .next t) : run (n + 1) s = run n t := by
  have h' : Sys2Proof.core.step s = .next t := h
  simp only [run, Host.Core.run, h']
  rfl

theorem run_succ_fault {n : Nat} {s : State} {f : Fault} (h : step s = .fault f) : run (n + 1) s = .fault f := by
  have h' : Sys2Proof.core.step s = .fault f := h
  simp only [run, Host.Core.run, h']
  rfl

theorem run_succ_refused {n : Nat} {s : State} {r : Refusal} (h : step s = .refused r) :
    run (n + 1) s = .refused r := by
  have h' : Sys2Proof.core.step s = .refused r := h
  simp only [run, Host.Core.run, h']
  rfl

/-- A run that answers a next state began with a step that did. -/
theorem run_succ_inv {n : Nat} {s u : State} (h : run (n + 1) s = .next u) :
    ∃ t, step s = .next t ∧ run n t = .next u := by
  cases hs : step s with
  | next t => exact ⟨t, rfl, by rw [← run_succ_next hs]; exact h⟩
  | fault f => rw [run_succ_fault hs] at h; cases h
  | refused f => rw [run_succ_refused hs] at h; cases h

end Sys2Proof.Machine
end

