-- ==== Sys2Proof/Laws/Stream.lean ====
section
/-! SUPPORT. The stream as a queue: where the unread bytes lie, and the queue's actions one by one and in a row. -/

namespace Sys2Proof.Machine

theorem State.unreadSpan_refill {s : State} (h : s.fsm = .refill) : s.unreadSpan = (0, 8 * s.k) := if_pos h

theorem State.unreadSpan_other {s : State} (h : s.fsm ≠ .refill) : s.unreadSpan = (s.cur, s.cap - s.cur) := if_neg h

/-- With CUR = CAP outside a refill nothing is unread. -/
theorem State.isUnread_nil {s : State} (h : s.fsm ≠ .refill) (hc : s.cur = s.cap) : s.IsUnread [] := by
  simp [State.IsUnread, State.unreadSpan_other h, hc]

/-- Two states with the same bytes in the same span have the same unread bytes. -/
theorem State.IsUnread.congr {s t : State} {q : List Byte} (h : s.IsUnread q) (hs : t.unreadSpan = s.unreadSpan)
    (hb : SameBytes s t) : t.IsUnread q := by
  refine ⟨by rw [hs]; exact h.1, fun j hj => ?_⟩
  rw [hs] at hj ⊢
  rw [hb]
  exact h.2 j hj

@[simp] theorem StreamQueue.acts_nil (bo : ByteOrder) (m : StreamQueue) : m.acts bo [] = m := rfl

@[simp] theorem StreamQueue.acts_cons (bo : ByteOrder) (m : StreamQueue) (a : StreamAction) (l : List StreamAction) :
    m.acts bo (a :: l) = (m.act bo a).acts bo l := rfl

@[simp] theorem StreamQueue.acts_append (bo : ByteOrder) (m : StreamQueue) (l l' : List StreamAction) :
    m.acts bo (l ++ l') = (m.acts bo l).acts bo l' := by
  simp [StreamQueue.acts]

end Sys2Proof.Machine
end

