-- ==== Sys2Proof/Tests/Slice0.lean ====
section
/-! SUPPORT. The model's own tests. Expected values come from spec/95_test_vectors.md (V-…, P…) or are worked out by hand
from the rule named. The second half shows, for each statement that has hypotheses, that something meets them. -/

namespace Sys2Proof.Tests

open Sys2Proof Sys2Proof.Machine

/-! ## Helpers: small states, with `CAP_WORDS = 1` (`CAP = 8`) unless said otherwise -/

/-- The result is a next state that passes the check. -/
def isNext (r : Result) (p : State → Bool) : Bool :=
  match r with
  | .next t => p t
  | _ => false

/-- The result is this fault. -/
def isFault (r : Result) (f : Fault) : Bool :=
  match r with
  | .fault g => g == f
  | _ => false

theorem isNext_elim {r : Result} {p : State → Bool} (h : isNext r p = true) : ∃ t, r = .next t ∧ p t = true := by
  cases r with
  | next t => exact ⟨t, rfl, h⟩
  | fault f => cases h
  | refused f => cases h

theorem isFault_elim {r : Result} {f : Fault} (h : isFault r f = true) : r = .fault f := by
  cases r with
  | next t => cases h
  | fault g => exact congrArg _ (of_decide_eq_true h)
  | refused g => cases h

/-- A host that presents a word, that answers, that resets. -/
def word (c : Word) : HostInput := ⟨false, some c, none⟩
def answer (a : Answer) : HostInput := ⟨false, none, some a⟩
def resets : HostInput := ⟨true, some 0x0200000000000000#64, some .ack⟩

/-- Right after reset, with `CAP = 8`. -/
def st0 : State := State.resetOf ⟨1, .le⟩

/-- IDLE, the whole buffer known, three bytes consumed. -/
def stIdle : State :=
  (st0.withBuf [(0, 1#8), (1, 2#8), (2, 3#8), (3, 4#8), (4, 5#8), (5, 6#8), (6, 7#8), (7, 8#8)]).withCur 3

/-- A READ of `rem` bytes in READ_LOOP. -/
def stLoop (rem : Len) : State := (stIdle.withRem rem).withFsm .readLoop

/-- A READ of 5 bytes in REFILL, `k` words written. -/
def stRefill (k : Nat) : State := ((st0.withRem 5#56).withK k).withFsm .refill

/-- A READ of 4 bytes that offers all 4. -/
def stXfer : State := ((stIdle.withRem 4#56).withNch 4).withFsm .xfer

/-- A READ of the 5 bytes that are left in the buffer. -/
def stXferLast : State := ((stIdle.withRem 5#56).withNch 5).withFsm .xfer

/-- A READ whose cursor lies outside the buffer, which no run reaches. -/
def stBad : State := ((st0.withCur 9).withRem 1#56).withFsm .readLoop

/-- The engine with two words set and the pointer on the first. -/
def eng (s0 s1 : Word) : GeneratorState := (⟨Vector.replicate 16 0#64, 3#4⟩ : GeneratorState).setWord 3#4 s0 |>.setWord 4#4 s1

/-! ## Well-formedness: one ill-formed term per check -/

theorem test_wf_reference : Config.reference.wf = true := by decide
theorem test_wf_refuses_no_capacity : Config.wf ⟨0, .le⟩ = false := by decide
theorem test_wf_refuses_operand_of_seed : AsmLine.wf ⟨.seed, [0]⟩ = false := by decide
theorem test_wf_refuses_operand_of_next : AsmLine.wf ⟨.next, [1]⟩ = false := by decide
theorem test_wf_refuses_long_read : AsmLine.wf ⟨.read, [2 ^ 56]⟩ = false := by decide
theorem test_wf_refuses_read_alone : AsmLine.wf ⟨.read, []⟩ = false := by decide
theorem test_wf_refuses_two_operands_of_write : AsmLine.wf ⟨.write, [1, 2]⟩ = false := by decide
theorem test_wf_refuses_long_raw_word : AsmLine.wf ⟨.cmd, [2 ^ 64]⟩ = false := by decide

/-- 00_scope R11: CUR_W and K_W at the reference size, and the smallest capacity. -/
theorem test_widths :
    Config.reference.curWidth = 11 ∧ Config.reference.kWidth = 8 ∧ Config.curWidth ⟨1, .le⟩ = 4 ∧
      Config.kWidth ⟨1, .le⟩ = 1 := by decide

/-! ## Decoding: words written out bit by bit (30_encoding R54 to R60, V-D) -/

/-- OP = 0000_0001, LEN = 0. -/
theorem test_decode_seed :
    decode 0b0000000100000000000000000000000000000000000000000000000000000000#64 = .instr .seed := by decide
/-- OP = 0000_0010, LEN = 0. -/
theorem test_decode_next :
    decode 0b0000001000000000000000000000000000000000000000000000000000000000#64 = .instr .next := by decide
/-- OP = 0000_0011, LEN = 2^55 + 1025: both ends of the field. -/
theorem test_decode_read :
    decode 0b0000001110000000000000000000000000000000000000000000010000000001#64 = .instr (.read 0x80000000000401#56) := by
  decide
/-- OP = 0000_0100, LEN = 5: ignored. -/
theorem test_decode_write :
    decode 0b0000010000000000000000000000000000000000000000000000000000000101#64 = .instr .write := by decide
/-- V-D: SEED with LEN bit 55, NEXT with LEN ≠ 0. -/
theorem test_decode_reserved_len :
    decode 0x0180000000000000#64 = .illegal (.reservedLen 0x01#8 0x80000000000000#56) ∧
      decode 0x0280000000000000#64 = .illegal (.reservedLen 0x02#8 0x80000000000000#56) := by decide
/-- V-D: the reserved opcodes at the ends of their ranges. -/
theorem test_decode_reserved_opcode :
    decode 0x0000000000000000#64 = .illegal (.reservedOpcode 0x00#8) ∧
      decode 0x0500000000000000#64 = .illegal (.reservedOpcode 0x05#8) ∧
      decode 0xFF00000000000000#64 = .illegal (.reservedOpcode 0xFF#8) := by decide
/-- 30_encoding R66: the assembler's words. -/
theorem test_encode :
    encode .seed = 0x0100000000000000#64 ∧ encode .next = 0x0200000000000000#64 ∧
      encode (.read 1025#56) = 0x0300000000000401#64 ∧ encode .write = 0x0400000000000000#64 := by decide
/-- A word of the table's length decodes; a longer one is no command word (30_encoding R65). -/
theorem test_table_word :
    decodeTableWord 64 0x0300000000000008 = some (.read 8#56) ∧ decodeTableWord 72 0x0200000000000000 = none := by decide

/-! ## The assembler (30_encoding R66) -/

theorem test_parse_read : parseLine [' ', 'R', 'E', 'A', 'D', ' ', '0', 'x', '1', 'f', ' ', ';', 'c'] = .line ⟨.read, [31]⟩ := by
  decide
theorem test_parse_comment : parseLine [';', 'S', 'E', 'E', 'D'] = .blank := by decide
theorem test_parse_lower_case : parseLine ['s', 'e', 'e', 'd'] = .refused := by decide
/-- V-W1: `WRITE 5`. -/
theorem test_assemble_write : assemble ⟨.write, [5]⟩ = some 0x0400000000000005#64 := by decide

/-! ## The engine -/

/-- V-E1 row 1: the written word and the output. -/
theorem test_engine_first_step :
    (engineStep GeneratorState.seed).1.word 1#4 = 0x100200003#64 ∧
      (engineStep GeneratorState.seed).2 = 0xC0562E31B467F91F#64 := by decide
/-- V-E3 "mixed", from p = 3. -/
theorem test_engine_mixed :
    (engineStep (eng 0x0123456789ABCDEF#64 0xFEDCBA9876543210#64)).1.word 4#4 = 0xC4CD5823897C20E7#64 ∧
      (engineStep (eng 0x0123456789ABCDEF#64 0xFEDCBA9876543210#64)).2 = 0x8FCE214F15888E53#64 := by decide
/-- V-E3 "s1 all ones": both shifts lose bits. -/
theorem test_engine_s1_ones :
    (engineStep (eng 0#64 0xFFFFFFFFFFFFFFFF#64)).1.word 4#4 = 0x7FF00000#64 := by decide
/-- V-E3 "s0 all ones": the shift by 30 is logical. -/
theorem test_engine_s0_ones :
    (engineStep (eng 0xFFFFFFFFFFFFFFFF#64 0#64)).2 = 0xADA0092C00000000#64 := by decide
/-- V-E4: −1 times MULT wraps. -/
theorem test_mult_wraps : 0xFFFFFFFFFFFFFFFF#64 * mult = 0xEF99762BAB68024B#64 := by decide
/-- V-S2: the first word of the stream in both byte orders. -/
theorem test_byte_order :
    bytesBO .le 0xC0562E31B467F91F#64 = [0x1F#8, 0xF9#8, 0x67#8, 0xB4#8, 0x31#8, 0x2E#8, 0x56#8, 0xC0#8] ∧
      bytesBO .be 0xC0562E31B467F91F#64 = [0xC0#8, 0x56#8, 0x2E#8, 0x31#8, 0xB4#8, 0x67#8, 0xF9#8, 0x1F#8] := by decide

/-! ## One step of each command and of each FSM row -/

/-- V-E5b: SEED after a NEXT puts the words and the pointer back and exhausts the buffer. -/
theorem test_seed :
    isNext (exec .seed ((stIdle.withGen (engineStep GeneratorState.seed).1)))
      (fun t => t.gen == GeneratorState.seed && t.cur == 8 && t.log == [.responded ⟨.ok, 0#64, 0#56⟩]) = true := by decide
/-- V-E5a: NEXT from State.reset, the word presented to the block. -/
theorem test_next :
    isNext (step (State.reset.withFetchWord 64 0x0200000000000000))
      (fun t => t.gen.p == 1#4 && t.gen.word 1#4 == 0x100200003#64 && t.fsm == .idle &&
        responsesIn t.log == [⟨.ok, 0xC0562E31B467F91F#64, 0#56⟩]) = true := by decide
/-- V-D: READ 2^56−1, its accept step. -/
theorem test_read_accept :
    isNext (step (State.reset.withFetchWord 64 0x03FFFFFFFFFFFFFF))
      (fun t => t.fsm == .readLoop && t.rem == 0xFFFFFFFFFFFFFF#56 && t.acc == 0#56 && responsesIn t.log == []) = true := by
  decide
/-- V-W1: WRITE 5; RESP1 = 0x0100000000000000 (V-D). -/
theorem test_write :
    isNext (step (State.reset.withFetchWord 64 0x0400000000000005))
      (fun t => t.gen == GeneratorState.seed && t.fsm == .idle &&
        (responsesIn t.log).map Response.resp1 == [0x0100000000000000#64]) = true := by decide
/-- P3 line 2: the all-zero word; RESP1 = 0x0200000000000000 (V-D). -/
theorem test_illegal :
    isNext (step (State.reset.withFetchWord 64 0))
      (fun t => t.gen == GeneratorState.seed && t.fsm == .idle &&
        (responsesIn t.log).map Response.resp1 == [0x0200000000000000#64]) = true := by decide
/-- 41_stream_buffer R83: the chunk is the smaller of REM and what is left; REM = 0 responds before any refill. -/
theorem test_read_loop :
    isNext (step (stLoop 9#56)) (fun t => t.fsm == .xfer && t.nch == 5) = true ∧
      isNext (step ((stLoop 0#56).withCur 8)) (fun t => t.fsm == .idle && t.log == [.responded ⟨.ok, 0#64, 0#56⟩]) = true := by
  decide
/-- P2: the first word a refill writes from reset. -/
theorem test_refill_word :
    isNext (step (stRefill 0))
      (fun t => t.k == 1 && t.buf == [(0, 0x1F#8), (1, 0xF9#8), (2, 0x67#8), (3, 0xB4#8), (4, 0x31#8), (5, 0x2E#8),
        (6, 0x56#8), (7, 0xC0#8)]) = true := by decide
/-- 41_stream_buffer R86. -/
theorem test_refill_end : isNext (step (stRefill 1)) (fun t => t.cur == 0 && t.fsm == .readLoop) = true := by decide
/-- 41_stream_buffer R88: the bytes offered are BUF[3..6]. -/
theorem test_ack :
    isNext (step (stXfer.withInputs [answer .ack]))
      (fun t => t.cur == 7 && t.rem == 0#56 && t.acc == 4#56 && t.log == [.offered [4#8, 5#8, 6#8, 7#8] .ack]) = true := by
  decide
/-- 41_stream_buffer R89: COUNT is ACC, and CUR stays. -/
theorem test_fault_answer :
    isNext (step ((stXfer.withAcc 16#56).withInputs [answer .fault]))
      (fun t => t.cur == 3 && t.fsm == .idle && (responsesIn t.log).map Response.resp1 == [0x0300000000000010#64]) = true := by
  decide
/-- V-R: reset in the middle of a refill, with a word presented: no response, the buffer is kept. -/
theorem test_reset :
    isNext (step (((stRefill 1).withBuf [(0, 0x6A#8)]).withInputs [resets]))
      (fun t => t.fsm == .idle && t.cur == 8 && t.k == 0 && t.rem == 0#56 && t.buf == [(0, 0x6A#8)] &&
        t.log == [.resetTaken true]) = true := by decide
/-- The model's stop where R84 has no row. -/
theorem test_no_row : isFault (step stBad) (.noRow .readLoop) = true := by decide
/-- The model's stop at an unknown byte (10_state R35). -/
theorem test_unknown_byte :
    isFault (step ((stXfer.withBuf [(3, 4#8)]).withInputs [answer .ack])) (.unknownByte 4) = true := by decide

/-! ## States that meet the invariant -/

theorem stIdle_known : Memory.Known stIdle.buf 3 8 := by
  intro a h1 h2
  interval_cases a <;> rfl

theorem inv_st0 : st0.Inv where
  cfgWf     := rfl
  bufWf     := by simp [st0, State.resetOf]
  bufWithin := by simp [st0, State.resetOf]
  nonZero   := ⟨0#4, by decide⟩
  curLe     := by decide
  kLe       := by decide
  nchLe     := by decide
  sumLt     := by intro h; exact absurd rfl h
  known     := by intro a h1 h2; exact absurd h1 (Nat.not_le.mpr h2)
  refill    := by intro h; cases h
  xfer      := by intro h; cases h

theorem inv_stIdle : stIdle.Inv where
  cfgWf     := rfl
  bufWf     := by decide
  bufWithin := by decide
  nonZero   := ⟨0#4, by decide⟩
  curLe     := by decide
  kLe       := by decide
  nchLe     := by decide
  sumLt     := by intro h; exact absurd rfl h
  known     := stIdle_known
  refill    := by intro h; cases h
  xfer      := by intro h; cases h

theorem inv_stXfer : stXfer.Inv where
  cfgWf     := rfl
  bufWf     := by decide
  bufWithin := by decide
  nonZero   := ⟨0#4, by decide⟩
  curLe     := by decide
  kLe       := by decide
  nchLe     := by decide
  sumLt     := by intro _; decide
  known     := stIdle_known
  refill    := by intro h; cases h
  xfer      := by intro _; decide

theorem inv_stXferLast : stXferLast.Inv where
  cfgWf     := rfl
  bufWf     := by decide
  bufWithin := by decide
  nonZero   := ⟨0#4, by decide⟩
  curLe     := by decide
  kLe       := by decide
  nchLe     := by decide
  sumLt     := by intro _; decide
  known     := stIdle_known
  refill    := by intro h; cases h
  xfer      := by intro _; decide

theorem inv_stRefill : (stRefill 0).Inv where
  cfgWf     := rfl
  bufWf     := by simp [stRefill, st0, State.resetOf]
  bufWithin := by simp [stRefill, st0, State.resetOf]
  nonZero   := ⟨0#4, by decide⟩
  curLe     := by decide
  kLe       := by decide
  nchLe     := by decide
  sumLt     := by intro _; decide
  known     := by intro a h1 h2; exact absurd h1 (Nat.not_le.mpr h2)
  refill    := by intro _; exact ⟨rfl, by decide, by intro a _ h2; exact absurd h2 (by decide +revert)⟩
  xfer      := by intro h; cases h

theorem inv_withInputs {s : State} (h : s.Inv) (l : List HostInput) : (s.withInputs l).Inv :=
  ⟨h.1, h.2, h.3, h.4, h.5, h.6, h.7, h.8, h.9, h.10, h.11⟩

/-! ## Witnesses: for each statement with hypotheses, something that meets them all, clause by clause -/

/-- Both directions of the clause: a command other than WRITE, and WRITE. -/
theorem witness_EncodeInvertsDecode :
    (decode 0x03FFFFFFFFFFFFFF#64 = .instr (.read 0xFFFFFFFFFFFFFF#56) ∧ Instr.read 0xFFFFFFFFFFFFFF#56 ≠ .write) ∧
      decode 0x04FFFFFFFFFFFFFF#64 = .instr .write := by decide

/-- One word for each clause, at the ends of the ranges. -/
theorem witness_DecodeClassesAndTableRows :
    ((0x0100000000000000#64).toNat / 2 ^ 56 = 1 ∧ (0x0100000000000000#64).toNat % 2 ^ 56 = 0) ∧
      ((0x0200000000000000#64).toNat / 2 ^ 56 = 2 ∧ (0x0200000000000000#64).toNat % 2 ^ 56 = 0) ∧
      (0x03FFFFFFFFFFFFFF#64).toNat / 2 ^ 56 = 3 ∧ (0x04FFFFFFFFFFFFFF#64).toNat / 2 ^ 56 = 4 ∧
      (0x00FFFFFFFFFFFFFF#64).toNat / 2 ^ 56 = 0 ∧ 5 ≤ (0x0500000000000000#64).toNat / 2 ^ 56 ∧
      5 ≤ (0xFFFFFFFFFFFFFFFF#64).toNat / 2 ^ 56 ∧
      ((0x0100000000000001#64).toNat / 2 ^ 56 = 1 ∧ (0x0100000000000001#64).toNat % 2 ^ 56 ≠ 0) ∧
      ((0x02FFFFFFFFFFFFFF#64).toNat / 2 ^ 56 = 2 ∧ (0x02FFFFFFFFFFFFFF#64).toNat % 2 ^ 56 ≠ 0) ∧
      decode 0x0100000000000000#64 = .instr .seed ∧
      decode 0x0500000000000000#64 = .illegal (.reservedOpcode 0x05#8) := by decide

/-- One word for each cause of an illegal command, at the ends of the ranges. -/
theorem witness_IllegalCommandChangesNothing :
    (∀ c : Word, (st0.withInputs [word c]).fsm = .idle ∧ (st0.withInputs [word c]).hostInput = ⟨false, some c, none⟩) ∧
      (0x0000000000000000#64).toNat / 2 ^ 56 = 0 ∧ 5 ≤ (0x0500000000000000#64).toNat / 2 ^ 56 ∧
      5 ≤ (0xFFFFFFFFFFFFFFFF#64).toNat / 2 ^ 56 ∧
      ((0x0180000000000000#64).toNat / 2 ^ 56 = 1 ∧ (0x0180000000000000#64).toNat % 2 ^ 56 ≠ 0) ∧
      ((0x0200000000000001#64).toNat / 2 ^ 56 = 2 ∧ (0x0200000000000001#64).toNat % 2 ^ 56 ≠ 0) :=
  ⟨fun _ => ⟨rfl, rfl⟩, by decide⟩

/-- A line that is not well-formed, and well-formed lines of every mnemonic. -/
theorem witness_AssembledLinesDecode :
    AsmLine.wf ⟨.read, [2 ^ 56]⟩ = false ∧ AsmLine.wf ⟨.seed, []⟩ = true ∧ AsmLine.wf ⟨.next, []⟩ = true ∧
      AsmLine.wf ⟨.read, [2 ^ 56 - 1]⟩ = true ∧ AsmLine.wf ⟨.write, []⟩ = true ∧ AsmLine.wf ⟨.write, [5]⟩ = true ∧
      AsmLine.wf ⟨.write, [2 ^ 56]⟩ = true ∧ AsmLine.wf ⟨.cmd, [2 ^ 64 - 1]⟩ = true := by decide

/-- V-E3 "mixed": its words meet the equations, with R76's one expression giving the table's written word. -/
theorem witness_EngineStepResult :
    (eng 0x0123456789ABCDEF#64 0xFEDCBA9876543210#64).word 3#4 = 0x0123456789ABCDEF#64 ∧
      (eng 0x0123456789ABCDEF#64 0xFEDCBA9876543210#64).word 4#4 = 0xFEDCBA9876543210#64 ∧
      0xC5F6A39076543210#64 = 0xFEDCBA9876543210#64 ^^^ (0xFEDCBA9876543210#64 <<< 31) ∧
      0xC4CD5823897C20E7#64 = 0xC5F6A39076543210#64 ^^^ (0xC5F6A39076543210#64 >>> 11) ^^^ 0x0123456789ABCDEF#64
        ^^^ (0x0123456789ABCDEF#64 >>> 30) := by decide

/-- A word the step does not write, next to the one it writes; and a second state that differs from the first in that
word alone. -/
theorem witness_EngineStepTouchesOneWord :
    (5#4 : BitVec 4) ≠ (eng 1#64 2#64).p + 1#4 ∧
      ((eng 1#64 2#64).setWord 5#4 9#64).p = (eng 1#64 2#64).p ∧
      ((eng 1#64 2#64).setWord 5#4 9#64).word 3#4 = (eng 1#64 2#64).word 3#4 ∧
      ((eng 1#64 2#64).setWord 5#4 9#64).word 4#4 = (eng 1#64 2#64).word 4#4 ∧
      ((eng 1#64 2#64).setWord 5#4 9#64).word 5#4 ≠ (eng 1#64 2#64).word 5#4 := by decide

/-- Two zero words among others that are not zero, and the all-zero state. -/
theorem witness_EngineStepZeroCases :
    ((eng 0#64 0#64).setWord 9#4 7#64).word 3#4 = 0#64 ∧ ((eng 0#64 0#64).setWord 9#4 7#64).word 4#4 = 0#64 ∧
      ((eng 0#64 0#64).setWord 9#4 7#64).p = 3#4 ∧ ∀ i, (eng 0#64 0#64).word i = 0#64 := by decide

/-- The pointer at its last value. -/
theorem witness_PointerWrapsEverySixteenSteps : ({ GeneratorState.seed with p := 15#4 } : GeneratorState).p = 15#4 := rfl

theorem witness_EngineNeverAllZero : st0.gen.NonZero ∧ ∃ t, step st0 = .next t :=
  ⟨⟨0#4, by decide⟩, _, step_idle_quiet rfl rfl rfl⟩

theorem witness_StepRunsDecodedCommand :
    (st0.withInputs [word 0x0200000000000000#64]).fsm = .idle ∧
      (st0.withInputs [word 0x0200000000000000#64]).hostInput = ⟨false, some 0x0200000000000000#64, none⟩ ∧
      decode 0x0200000000000000#64 = .instr .next := by decide

theorem witness_SeedCommand :
    (∃ t, exec .seed (State.resetOf ⟨1, .be⟩) = .next t) ∧ (∃ t, exec .seed stIdle = .next t) ∧
      stIdle.fsm = .idle ∧
      (stIdle.withInputs [word (commandWord 0x01#8 1#56)]).hostInput = ⟨false, some (commandWord 0x01#8 1#56), none⟩ ∧
      (1#56 : Len) ≠ 0#56 :=
  ⟨⟨_, exec_seed _⟩, ⟨_, exec_seed _⟩, rfl, rfl, by decide⟩

/-- The two words of V-E1 step 1 meet the equations of the clause. -/
theorem witness_NextCommand :
    (1#64 : Word) = st0.gen.word st0.gen.p ∧ (2#64 : Word) = st0.gen.word (st0.gen.p + 1#4) ∧
      0x100000002#64 = 2#64 ^^^ (2#64 <<< 31) ∧
      0x100200003#64 = 0x100000002#64 ^^^ (0x100000002#64 >>> 11) ^^^ 1#64 ^^^ (1#64 >>> 30) ∧
      stIdle.fsm = .idle ∧
      (stIdle.withInputs [word (commandWord 0x02#8 0x80000000000000#56)]).hostInput
        = ⟨false, some (commandWord 0x02#8 0x80000000000000#56), none⟩ ∧
      (0x80000000000000#56 : Len) ≠ 0#56 := by decide

/-- Words of READ at both ends of the operand. -/
theorem witness_ReadAccept :
    (∀ c : Word, (stIdle.withInputs [word c]).fsm = .idle ∧
      (stIdle.withInputs [word c]).hostInput = ⟨false, some c, none⟩) ∧
      (0x0300000000000000#64).toNat / 2 ^ 56 = 3 ∧ (0x03FFFFFFFFFFFFFF#64).toNat / 2 ^ 56 = 3 :=
  ⟨fun _ => ⟨rfl, rfl⟩, by decide⟩

theorem witness_WriteIsRejected :
    (∀ c : Word, (stIdle.withInputs [word c]).fsm = .idle ∧
      (stIdle.withInputs [word c]).hostInput = ⟨false, some c, none⟩) ∧
      (0x0400000000000000#64).toNat / 2 ^ 56 = 4 ∧ (0x04FFFFFFFFFFFFFF#64).toNat / 2 ^ 56 = 4 :=
  ⟨fun _ => ⟨rfl, rfl⟩, by decide⟩

/-- A WRITE before a READ: the run goes on; and one that stops, from a state no run reaches. -/
theorem witness_WriteLeavesLaterRunsAlone :
    (0x0400000000000005#64).toNat / 2 ^ 56 = 4 ∧
      (∃ t, run 1 (stIdle.withInputs [word 0x0400000000000005#64, word 0x0300000000000002#64]).consumeInput = .next t) ∧
      run 2 ((st0.withCur 9).withInputs [word 0x0400000000000005#64, word 0x0300000000000001#64]).consumeInput
        = .fault (.noRow .readLoop) :=
  ⟨by decide, (isNext_elim (p := fun _ => true) (by decide)).imp fun _ h => h.1, isFault_elim (by decide)⟩

/-- REM = 0 with the buffer exhausted, REM ≠ 0 with it exhausted, and one byte left. -/
theorem witness_ReadLoopStep :
    ((stLoop 0#56).withCur 8).cur = ((stLoop 0#56).withCur 8).cap ∧ (stLoop 0#56).rem = 0#56 ∧
      ((stLoop 1#56).withCur 8).cur = ((stLoop 1#56).withCur 8).cap ∧ (stLoop 1#56).rem ≠ 0#56 ∧
      ((stLoop 1#56).withCur 7).cur < ((stLoop 1#56).withCur 7).cap ∧ (stLoop 1#56).fsm = .readLoop ∧
      (stLoop 1#56).hostInput.reset = false := by decide

theorem witness_RefillWordStep :
    (stRefill 0).fsm = .refill ∧ (stRefill 0).hostInput.reset = false ∧ (stRefill 0).k < (stRefill 0).cfg.capWords := by
  decide

theorem witness_RefillEndStep :
    (stRefill 1).fsm = .refill ∧ (stRefill 1).hostInput.reset = false ∧ (stRefill 1).k = (stRefill 1).cfg.capWords := by
  decide

theorem witness_AcknowledgedChunkIsConsumed :
    (stXferLast.withInputs [answer .ack]).Inv ∧ (stXferLast.withInputs [answer .ack]).fsm = .xfer ∧
      (stXferLast.withInputs [answer .ack]).hostInput.reset = false ∧
      (stXferLast.withInputs [answer .ack]).hostInput.ans = some .ack :=
  ⟨inv_withInputs inv_stXferLast _, rfl, rfl, rfl⟩

theorem witness_FaultedChunkEndsTheRead :
    (stXfer.withInputs [answer .fault]).Inv ∧ (stXfer.withInputs [answer .fault]).fsm = .xfer ∧
      (stXfer.withInputs [answer .fault]).hostInput.reset = false ∧
      (stXfer.withInputs [answer .fault]).hostInput.ans = some .fault :=
  ⟨inv_withInputs inv_stXfer _, rfl, rfl, rfl⟩

/-- IDLE without a word, and XFER without an answer though a word is presented. -/
theorem witness_BlockWaitsForTheHost :
    (st0.hostInput.reset = false ∧ st0.fsm = .idle ∧ st0.hostInput.word = none) ∧
      (stXfer.withInputs [word 0x0100000000000000#64]).hostInput.reset = false ∧
      (stXfer.withInputs [word 0x0100000000000000#64]).fsm = .xfer ∧
      (stXfer.withInputs [word 0x0100000000000000#64]).hostInput.ans = none := by decide

theorem witness_BusyBlockIgnoresWords :
    stXfer.fsm ≠ .idle ∧ (∃ t, step (stXfer.withInputs [word 0x0100000000000000#64]) = .next t) ∧
      (stRefill 0).fsm ≠ .idle :=
  ⟨by decide, ⟨_, step_xfer_waits rfl rfl rfl⟩, by decide⟩

theorem witness_AnswerWithoutOfferIsIgnored : stIdle.fsm ≠ .xfer ∧ (stRefill 0).fsm ≠ .xfer := by decide

theorem witness_ReadZero : st0.fsm = .idle ∧ HostInput.quiet.reset = false := by decide

theorem witness_ExactReadLeavesBufferExhausted :
    stXferLast.Inv ∧ stXferLast.fsm = .xfer ∧ stXferLast.rem.toNat = stXferLast.cap - stXferLast.cur :=
  ⟨inv_stXferLast, rfl, by decide⟩

theorem witness_ReadAfterSeedRefillsFirst :
    (1#56 : Len) ≠ 0#56 ∧ HostInput.quiet.reset = false ∧ ∃ t, exec .seed stIdle = .next t :=
  ⟨by decide, rfl, _, exec_seed _⟩

theorem witness_RetryOffersTheSameBytes :
    stXfer.Inv ∧ stXfer.fsm = .xfer ∧ (9#56 : Len) ≠ 0#56 ∧ HostInput.quiet.reset = false :=
  ⟨inv_stXfer, rfl, by decide, rfl⟩

theorem witness_RefillAndNextShareTheEngine :
    ((stRefill 0).fsm = .refill ∧ (stRefill 0).hostInput.reset = false ∧
      (stRefill 0).k < (stRefill 0).cfg.capWords) ∧
      (∃ t, step (stRefill 0) = .next t) ∧ ∃ u, exec .next (stRefill 0) = .next u :=
  ⟨by decide, ⟨_, step_refill_word rfl rfl (by decide)⟩, _, exec_next _⟩

/-- Reset in the middle of a READ, with a word and an answer beside it. -/
theorem witness_ResetTakesPrecedence : (stXfer.withInputs [resets]).hostInput.reset = true := rfl

theorem witness_FirstCommandAfterReset :
    (stXfer.withInputs [resets]).cfg.wf = true ∧ (stXfer.withInputs [resets]).hostInput.reset = true ∧
      (∃ t, step (stXfer.withInputs [resets]) = .next t) ∧ (1#56 : Len) ≠ 0#56 ∧ HostInput.quiet.reset = false :=
  ⟨rfl, rfl, ⟨_, step_reset rfl⟩, by decide, rfl⟩

/-- Two blocks with different pasts, the same reset and the same READ of one byte after it. -/
theorem witness_ResetForgetsThePast :
    stXfer.cfg = (stRefill 1).cfg ∧
      (∃ t, run 3 (stXfer.withInputs [resets, word 0x0300000000000001#64]) = .next t) ∧
      ∃ t, run 3 ((stRefill 1).withInputs [resets, word 0x0300000000000001#64]) = .next t :=
  ⟨rfl, (isNext_elim (p := fun _ => true) (by decide)).imp fun _ h => h.1,
    (isNext_elim (p := fun _ => true) (by decide)).imp fun _ h => h.1⟩

/-- The smallest capacity. -/
theorem witness_InvariantAtReset : Config.wf ⟨1, .be⟩ = true := by decide

theorem witness_InvariantKeptByEveryStep : (stRefill 0).Inv ∧ ∃ t, step (stRefill 0) = .next t :=
  ⟨inv_stRefill, _, step_refill_word rfl rfl (by decide)⟩

theorem witness_NoFaultUnderInvariant : stXfer.Inv ∧ stIdle.Inv ∧ (stRefill 0).Inv :=
  ⟨inv_stXfer, inv_stIdle, inv_stRefill⟩

theorem witness_ParametersNeverChange : ∃ t, step stXfer = .next t := ⟨_, step_xfer_waits rfl rfl rfl⟩

/-- For each clause a step that writes that state. -/
theorem witness_OnlyTheseStepsWrite :
    (∃ t, step (st0.withInputs [word 0x0200000000000000#64]) = .next t ∧ decide (t.gen ≠ st0.gen) = true) ∧
      (∃ t, step (stRefill 0) = .next t ∧ (decide (t.buf ≠ (stRefill 0).buf) && decide (t.k ≠ 0)) = true) ∧
      (∃ t, step (stXfer.withInputs [answer .ack]) = .next t ∧
        (decide (t.cur ≠ stXfer.cur) && decide (t.rem ≠ stXfer.rem)) = true) ∧
      ∃ t, step (stLoop 1#56) = .next t ∧ decide (t.nch ≠ (stLoop 1#56).nch) = true :=
  ⟨isNext_elim (by decide), isNext_elim (by decide), isNext_elim (by decide), isNext_elim (by decide)⟩

theorem witness_ChunkBounds :
    (stXfer.Inv ∧ stXfer.fsm = .xfer) ∧ (stXferLast.Inv ∧ stXferLast.fsm = .xfer) ∧ ∃ t, step stXfer = .next t :=
  ⟨⟨inv_stXfer, rfl⟩, ⟨inv_stXferLast, rfl⟩, _, step_xfer_waits rfl rfl rfl⟩

/-- One step into a READ of 4 bytes. -/
theorem witness_AccPlusRemIsLen :
    stIdle.Inv ∧ stIdle.fsm = .idle ∧
      ∃ t, exec (.read 4#56) stIdle = .next t ∧ t.NoReset 1 ∧
        ∃ u, run 1 t = .next u ∧ (decide (acceptedWords u.log = acceptedWords t.log) && decide (u.fsm ≠ .idle)) = true :=
  ⟨inv_stIdle, rfl, _, exec_read _ _, (by unfold State.NoReset; decide), isNext_elim (by decide)⟩

theorem witness_OneResponsePerCommand :
    (st0.Balanced ∧ ∃ t, step st0 = .next t) ∧ (stXfer.withLog [.accepted 0x0300000000000004#64]).Balanced ∧
      stXfer.fsm ≠ .idle ∧ (∃ t, step stXfer = .next t) ∧
      (stXfer.withInputs [resets]).hostInput.reset = true ∧ ∃ t, step (stXfer.withInputs [resets]) = .next t :=
  ⟨⟨rfl, _, step_idle_quiet rfl rfl rfl⟩, rfl, by decide, ⟨_, step_xfer_waits rfl rfl rfl⟩, rfl, _, step_reset rfl⟩

theorem witness_RecordIsNeverRead :
    (∃ t, step stXfer = .next t) ∧ step stBad = .fault (.noRow .readLoop) :=
  ⟨⟨_, step_xfer_waits rfl rfl rfl⟩, isFault_elim (by decide)⟩

/-- IDLE, with a READ of 2 bytes, a move of no effect, the ACK for its one chunk and a quiet move to come. -/
def stAcked : State :=
  stIdle.withInputs [word (encode (.read 2#56)), word 0x0100000000000000#64, answer .ack, HostInput.quiet]

/-- 41_stream_buffer R102: accept, two READ_LOOP steps, one XFER step; no refill. -/
theorem test_readSteps : readSteps stAcked.cfg stAcked.cur (2#56 : Len).toNat = 4 := by decide

theorem witness_AcknowledgedReadCompletes :
    stAcked.Inv ∧ stAcked.fsm = .idle ∧ stAcked.hostInput = ⟨false, some (encode (.read 2#56)), none⟩ ∧
      stAcked.NoReset (readSteps stAcked.cfg stAcked.cur (2#56 : Len).toNat) ∧
      stAcked.AcksEveryOffer (readSteps stAcked.cfg stAcked.cur (2#56 : Len).toNat) ∧
      ∃ u, run 2 stAcked = .next u ∧ decide (u.fsm = .xfer) = true := by
  refine ⟨inv_withInputs inv_stIdle _, rfl, rfl, by rw [test_readSteps]; unfold State.NoReset; decide, ?_,
    isNext_elim (by decide)⟩
  rw [test_readSteps]
  have h : ∀ j < 4, isNext (run j stAcked) (fun u => decide (u.fsm = .xfer → u.hostInput.ans = some .ack)) = true := by
    decide
  intro j u hj hu
  have := h j hj
  rw [hu] at this
  exact of_decide_eq_true this

/-- CUR at the top of its range, and a busy state. -/
theorem witness_RegisterWidths : (st0.Inv ∧ st0.cur = st0.cap) ∧ stXfer.Inv := ⟨⟨inv_st0, rfl⟩, inv_stXfer⟩

/-- A NEXT, in a state with unread bytes. -/
theorem witness_StreamIsAQueue :
    (stIdle.withInputs [word 0x0200000000000000#64]).Inv ∧
      (stIdle.withInputs [word 0x0200000000000000#64]).IsUnread [4#8, 5#8, 6#8, 7#8, 8#8] ∧
      ∃ t, run 1 (stIdle.withInputs [word 0x0200000000000000#64]) = .next t := by
  refine ⟨inv_withInputs inv_stIdle _, ⟨by decide, by decide⟩, (isNext_elim (p := fun _ => true) (by decide)).imp fun _ h => h.1⟩

/-- One block reset in the middle of a READ, another accepting SEED in IDLE, with a READ to come for both. -/
theorem witness_RestartRepeatsTheStream :
    stXfer.cfg = stIdle.cfg ∧ (stXfer.withInputs [resets, word 0x0300000000000001#64]).Restarts ∧
      (stIdle.withInputs [word 0x0100000000000000#64, word 0x0300000000000001#64]).Restarts ∧
      (∃ t, run 3 (stXfer.withInputs [resets, word 0x0300000000000001#64]) = .next t) ∧
      ∃ t, run 3 (stIdle.withInputs [word 0x0100000000000000#64, word 0x0300000000000001#64]) = .next t :=
  ⟨rfl, .inl rfl, .inr ⟨rfl, _, _, rfl, by decide⟩,
    (isNext_elim (p := fun _ => true) (by decide)).imp fun _ h => h.1,
    (isNext_elim (p := fun _ => true) (by decide)).imp fun _ h => h.1⟩

/-- A READ of 2 bytes with its one chunk acknowledged. -/
theorem witness_ReadFsmRefinesAlgorithm :
    (stIdle.withInputs [HostInput.quiet, answer .ack]).Inv ∧ (stIdle.withInputs [HostInput.quiet, answer .ack]).fsm = .idle ∧
      ∃ t, exec (.read 2#56) (stIdle.withInputs [HostInput.quiet, answer .ack]) = .next t ∧ t.NoReset 3 ∧
        ∃ u, run 3 t = .next u ∧ (decide (acceptedWords u.log = acceptedWords t.log) && decide (u.fsm = .idle)) = true :=
  ⟨inv_withInputs inv_stIdle _, rfl, _, exec_read _ _, by unfold State.NoReset; decide, isNext_elim (by decide)⟩

/-- The same READ, and one whose chunk is answered FAULT. -/
theorem witness_ReadEndsExactOrFaulted (a : Answer) :
    (stIdle.withInputs [HostInput.quiet, answer a]).Inv ∧ (stIdle.withInputs [HostInput.quiet, answer a]).fsm = .idle ∧
      ∃ t, exec (.read 2#56) (stIdle.withInputs [HostInput.quiet, answer a]) = .next t ∧ t.NoReset 3 ∧
        ∃ u, run 3 t = .next u ∧ (decide (acceptedWords u.log = acceptedWords t.log) && decide (u.fsm = .idle)) = true := by
  cases a
  · exact ⟨inv_withInputs inv_stIdle _, rfl, _, exec_read _ _, by unfold State.NoReset; decide, isNext_elim (by decide)⟩
  · exact ⟨inv_withInputs inv_stIdle _, rfl, _, exec_read _ _, by unfold State.NoReset; decide, isNext_elim (by decide)⟩

/-- The host's moves hold a READ and an answer. -/
theorem witness_StreamLaw :
    st0.Inv ∧ st0.fsm = .idle ∧ st0.cur = st0.cap ∧
      (∀ i ∈ [word 0x0300000000000001#64, answer .ack],
        i.reset = false ∧ ∀ c, i.word = some c → decode c ≠ .instr .next ∧ decode c ≠ .instr .seed) ∧
      ∃ t, run 2 (st0.withInputs [word 0x0300000000000001#64, answer .ack]) = .next t := by
  refine ⟨inv_st0, rfl, rfl, ?_, (isNext_elim (p := fun _ => true) (by decide)).imp fun _ h => h.1⟩
  intro i hi
  simp only [List.mem_cons, List.not_mem_nil, or_false] at hi
  rcases hi with rfl | rfl
  · refine ⟨rfl, fun c hc => ?_⟩
    cases hc
    decide
  · exact ⟨rfl, fun c hc => by cases hc⟩

theorem witness_ChunkingInvariance :
    stIdle.Inv ∧ stIdle.fsm = .idle ∧ (([2#56, 0#56, 7#56] : List Len).map BitVec.toNat).sum = (9#56 : Len).toNat :=
  ⟨inv_stIdle, rfl, by decide⟩

end Sys2Proof.Tests
end

section
/-! PROOFS. 00_scope: the widths of the counters. -/

namespace Sys2Proof.Machine

/-- A CUR in its range loses no bit at `CUR_W` (10_state R21). -/
theorem State.curReg_toNat {s : State} (h : s.cur ≤ s.cap) : s.curReg.toNat = s.cur :=
  ofNat_leastWidth_toNat h

/-- An NCH in its range loses no bit at `CUR_W` (10_state R27). -/
theorem State.nchReg_toNat {s : State} (h : s.nch ≤ s.cap) : s.nchReg.toNat = s.nch :=
  ofNat_leastWidth_toNat h

/-- A K in its range loses no bit at `K_W` (10_state R26). -/
theorem State.kReg_toNat {s : State} (h : s.k ≤ s.cfg.capWords) : s.kReg.toNat = s.k :=
  ofNat_leastWidth_toNat h

/-- Settles O39: the widths are least widths by definition, and the invariant's ranges are what these widths hold. -/
theorem registerWidths : Obligations.RegisterWidths := by
  unfold Obligations.RegisterWidths
  refine ⟨fun c w => ⟨leastWidth_le_iff c.cap w, leastWidth_le_iff c.capWords w⟩, ?curReference, ?kReference, ?registers,
    commandWord_fields⟩
  case curReference => decide
  case kReference => decide
  case registers =>
    intro s hinv
    exact ⟨State.curReg_toNat hinv.curLe, State.nchReg_toNat hinv.nchLe, State.kReg_toNat hinv.kLe⟩

end Sys2Proof.Machine
end

section
/-! PROOFS. 10_state: the rows of the transition relation, what each leaves unchanged, the invariant. -/

namespace Sys2Proof.Machine

/-! ## The rows of 41_stream_buffer R84, by name -/

/-- The rows of 41_stream_buffer R84, reset beside them: `StepRow s t` says by which row a step leads from `s` to `t`. The
accept step is split by what the word decodes to, and the XFER step by the answer. `step_iff_row` ties it to `step`. -/
inductive StepRow (s : State) : State → Prop
  | reset (hr : s.hostInput.reset = true) : StepRow s s.consumeInput.takeReset
  | idleQuiet (hr : s.hostInput.reset = false) (hf : s.fsm = .idle) (hw : s.hostInput.word = none) :
      StepRow s s.consumeInput
  | seed {c : Word} (hr : s.hostInput.reset = false) (hf : s.fsm = .idle) (hw : s.hostInput.word = some c)
      (hd : decode c = .instr .seed) :
      StepRow s (((s.consumeInput.logAccepted c).seedEngine.withCur s.cap).respond .ok 0#64 0#56)
  | next {c : Word} (hr : s.hostInput.reset = false) (hf : s.fsm = .idle) (hw : s.hostInput.word = some c)
      (hd : decode c = .instr .next) :
      StepRow s (((s.consumeInput.logAccepted c).withGen (engineStep s.gen).1).respond .ok (engineStep s.gen).2 0#56)
  | read {c : Word} {n : Len} (hr : s.hostInput.reset = false) (hf : s.fsm = .idle)
      (hw : s.hostInput.word = some c) (hd : decode c = .instr (.read n)) :
      StepRow s (((s.consumeInput.logAccepted c).loadRead n).withFsm .readLoop)
  | write {c : Word} (hr : s.hostInput.reset = false) (hf : s.fsm = .idle) (hw : s.hostInput.word = some c)
      (hd : decode c = .instr .write) :
      StepRow s ((s.consumeInput.logAccepted c).raise .unsupportedOperation 0#56)
  | illegal {c : Word} {x : IllegalCause} (hr : s.hostInput.reset = false) (hf : s.fsm = .idle)
      (hw : s.hostInput.word = some c) (hd : decode c = .illegal x) :
      StepRow s ((s.consumeInput.logAccepted c).raise .illegalCommand 0#56)
  | loopDone (hr : s.hostInput.reset = false) (hf : s.fsm = .readLoop) (hrem : s.rem = 0#56) :
      StepRow s ((s.consumeInput.respond .ok 0#64 s.acc).withFsm .idle)
  | loopRefill (hr : s.hostInput.reset = false) (hf : s.fsm = .readLoop) (hrem : s.rem ≠ 0#56)
      (hc : s.cur = s.cap) : StepRow s ((s.consumeInput.withK 0).withFsm .refill)
  | loopXfer (hr : s.hostInput.reset = false) (hf : s.fsm = .readLoop) (hrem : s.rem ≠ 0#56)
      (hc : s.cur < s.cap) : StepRow s ((s.consumeInput.withNch s.chunkLength).withFsm .xfer)
  | refillWord (hr : s.hostInput.reset = false) (hf : s.fsm = .refill) (hk : s.k < s.cfg.capWords) :
      StepRow s (((s.consumeInput.withGen (engineStep s.gen).1).withBuf
        (Memory.putBytes s.buf (8 * s.k) (bytesBO s.cfg.byteOrder (engineStep s.gen).2))).withK (s.k + 1))
  | refillEnd (hr : s.hostInput.reset = false) (hf : s.fsm = .refill) (hk : s.k = s.cfg.capWords) :
      StepRow s ((s.consumeInput.withCur 0).withFsm .readLoop)
  | xferWaits (hr : s.hostInput.reset = false) (hf : s.fsm = .xfer) (ha : s.hostInput.ans = none) :
      StepRow s s.consumeInput
  | xferAck {bs : List Byte} (hr : s.hostInput.reset = false) (hf : s.fsm = .xfer)
      (ha : s.hostInput.ans = some .ack) (h1 : 1 ≤ s.nch) (hn : s.nch ≤ s.rem.toNat)
      (hm : memRead s.cfg s.buf s.cur s.nch = .ok bs) :
      StepRow s (((s.consumeInput.pushLog (.offered bs .ack)).consumeChunk).withFsm .readLoop)
  | xferFault {bs : List Byte} (hr : s.hostInput.reset = false) (hf : s.fsm = .xfer)
      (ha : s.hostInput.ans = some .fault) (h1 : 1 ≤ s.nch) (hn : s.nch ≤ s.rem.toNat)
      (hm : memRead s.cfg s.buf s.cur s.nch = .ok bs) :
      StepRow s ((s.consumeInput.pushLog (.offered bs .fault)).raise .transferFault s.acc)

/-- The row of a command accepted in IDLE. -/
theorem stepRow_of_exec {s t : State} {c : Word} {i : Instr} (hr : s.hostInput.reset = false) (hf : s.fsm = .idle)
    (hw : s.hostInput.word = some c) (hd : decode c = .instr i)
    (h : exec i (s.consumeInput.logAccepted c) = .next t) : StepRow s t := by
  cases i with
  | seed => cases h; exact .seed hr hf hw hd
  | next => cases h; exact .next hr hf hw hd
  | read n => cases h; exact .read hr hf hw hd
  | write => cases h; exact .write hr hf hw hd

/-- The row of an answer given in XFER. -/
theorem stepRow_of_answer {s t : State} {a : Answer} {bs : List Byte} (hr : s.hostInput.reset = false)
    (hf : s.fsm = .xfer) (ha : s.hostInput.ans = some a) (h1 : 1 ≤ s.nch) (hn : s.nch ≤ s.rem.toNat)
    (hm : memRead s.cfg s.buf s.cur s.nch = .ok bs) (h : answerChunk s.consumeInput bs a = .next t) : StepRow s t := by
  cases a with
  | ack => cases h; exact .xferAck hr hf ha h1 hn hm
  | fault => cases h; exact .xferFault hr hf ha h1 hn hm

/-- A step that answers a next state makes one of the rows. -/
theorem stepRow_of_step {s t : State} (h : step s = .next t) : StepRow s t := by
  rcases step_cases h with ⟨hr, rfl⟩ | ⟨hr, ⟨hf, hw, rfl⟩ | ⟨hf, c, hw, ⟨i, hd, he⟩ | ⟨x, hd, rfl⟩⟩ |
    ⟨hf, hrem, rfl⟩ | ⟨hf, hrem, hc, rfl⟩ | ⟨hf, hrem, hc, rfl⟩ | ⟨hf, hk, rfl⟩ | ⟨hf, hk, rfl⟩ | ⟨hf, ha, rfl⟩ |
    ⟨hf, a, bs, ha, h1, hn, hm, hans⟩⟩
  · exact .reset hr
  · exact .idleQuiet hr hf hw
  · exact stepRow_of_exec hr hf hw hd he
  · exact .illegal hr hf hw hd
  · exact .loopDone hr hf hrem
  · exact .loopRefill hr hf hrem hc
  · exact .loopXfer hr hf hrem hc
  · exact .refillWord hr hf hk
  · exact .refillEnd hr hf hk
  · exact .xferWaits hr hf ha
  · exact stepRow_of_answer hr hf ha h1 hn hm hans

/-- Each row is the step of the states it speaks of. -/
theorem step_of_stepRow {s t : State} (h : StepRow s t) : step s = .next t := by
  cases h with
  | reset hr => exact step_reset hr
  | idleQuiet hr hf hw => exact step_idle_quiet hr hf hw
  | seed hr hf hw hd => rw [step_accept hr hf hw, accept_instr _ hd]; rfl
  | next hr hf hw hd => rw [step_accept hr hf hw, accept_instr _ hd]; rfl
  | read hr hf hw hd => rw [step_accept hr hf hw, accept_instr _ hd, exec_read]
  | write hr hf hw hd => rw [step_accept hr hf hw, accept_instr _ hd, exec_write]
  | illegal hr hf hw hd => rw [step_accept hr hf hw, accept_illegal _ hd]
  | loopDone hr hf hrem => exact step_readLoop_done hr hf hrem
  | loopRefill hr hf hrem hc => exact step_readLoop_refill hr hf hrem hc
  | loopXfer hr hf hrem hc => exact step_readLoop_xfer hr hf hrem hc
  | refillWord hr hf hk => exact step_refill_word hr hf hk
  | refillEnd hr hf hk => exact step_refill_end hr hf hk
  | xferWaits hr hf ha => exact step_xfer_waits hr hf ha
  | xferAck hr hf ha h1 hn hm => rw [step_xfer_answered hr hf ha h1 hn hm, answerChunk_ack]
  | xferFault hr hf ha h1 hn hm => rw [step_xfer_answered hr hf ha h1 hn hm, answerChunk_fault]; simp

/-- A step answers a next state exactly by one of the rows. -/
theorem step_iff_row {s t : State} : step s = .next t ↔ StepRow s t := ⟨stepRow_of_step, step_of_stepRow⟩

/-! ## The engine is never all zero (10_state R19) -/

/-- Three shifts to the left by 31 push every bit out of the word, so only 0 is its own shift. -/
theorem xorShiftLeft31_eq_zero {x : Word} (h : x ^^^ (x <<< 31) = 0#64) : x = 0#64 := by
  have hx : x = x <<< 31 := BitVec.xor_eq_zero_iff.mp h
  calc x = x <<< 31 <<< 31 <<< 31 := by rw [← hx, ← hx, ← hx]
    _ = x <<< 93 := by rw [← BitVec.shiftLeft_add, ← BitVec.shiftLeft_add]
    _ = 0#64 := BitVec.shiftLeft_eq_zero (by decide)

/-- A shift to the right by 11 makes every word but 0 smaller. -/
theorem xorShiftRight11_eq_zero {x : Word} (h : x ^^^ (x >>> 11) = 0#64) : x = 0#64 := by
  have hx : x.toNat = x.toNat / 2 ^ 11 := by
    conv_lhs => rw [BitVec.xor_eq_zero_iff.mp h]
    rw [BitVec.toNat_ushiftRight, Nat.shiftRight_eq_div_pow]
  exact BitVec.eq_of_toNat_eq (by simp only [BitVec.toNat_ofNat]; omega)

/-- Beside a zero word at the old pointer, the written word is 0 only where the word it replaces was 0. -/
theorem eq_zero_of_nextWord_zero {x : Word} (h : nextWord 0#64 x = 0#64) : x = 0#64 := by
  have h' : (x ^^^ (x <<< 31)) ^^^ ((x ^^^ (x <<< 31)) >>> 11) = 0#64 := by simpa [nextWord] using h
  exact xorShiftLeft31_eq_zero (xorShiftRight11_eq_zero h')

theorem GeneratorState.seed_nonZero : GeneratorState.seed.NonZero := by
  refine ⟨0#4, fun h => ?_⟩
  have h1 := GeneratorState.word_seed 0#4
  simp [h] at h1

/-- An engine step out of a state that is not all zero: if everything after it were 0, then so were every word it did not
write, the one at the old pointer among them, and hence the word it replaced. -/
theorem engineStep_nonZero {g : GeneratorState} (h : g.NonZero) : (engineStep g).1.NonZero := by
  by_contra hz
  have hall : ∀ i, (engineStep g).1.word i = 0#64 := fun i => not_not.mp fun hi => hz ⟨i, hi⟩
  have hkept : ∀ i, i ≠ g.p + 1#4 → g.word i = 0#64 := fun i hi => by
    simpa [engineStep_word, hi] using hall i
  have hwritten : nextWord (g.word g.p) (g.word (g.p + 1#4)) = 0#64 := by
    simpa [engineStep_word] using hall (g.p + 1#4)
  rw [hkept g.p (ptr_ne_succ g.p)] at hwritten
  obtain ⟨i, hi⟩ := h
  by_cases hp : i = g.p + 1#4
  · exact hi (hp ▸ eq_zero_of_nextWord_zero hwritten)
  · exact hi (hkept i hp)

/-- Every row leaves the engine, seeds it or makes one engine step. -/
theorem StepRow.gen_nonZero {s t : State} (h : StepRow s t) (hs : s.gen.NonZero) : t.gen.NonZero := by
  cases h with
  | reset | seed => simpa using GeneratorState.seed_nonZero
  | next | refillWord => simpa using engineStep_nonZero hs
  | _ => simpa using hs

/-- Settles O13: the seed has a word that is not 0, and every row keeps one. -/
theorem engineNeverAllZero : Obligations.EngineNeverAllZero := by
  unfold Obligations.EngineNeverAllZero
  exact ⟨fun _ => GeneratorState.seed_nonZero, fun s t hs h => (stepRow_of_step h).gen_nonZero hs⟩

/-! ## The invariant, part by part -/

/-- Bytes once known stay known when others are written. -/
theorem Memory.Known.putBytes {m : Memory} {lo hi : Nat} (h : Memory.Known m lo hi) (off : Nat) (bs : List Byte) :
    Memory.Known (Memory.putBytes m off bs) lo hi := by
  intro a hlo hhi
  rw [Memory.byteAt_putBytes]
  split
  · rename_i hin
    simp [List.getElem?_eq_getElem (show a - off < bs.length by omega)]
  · exact h a hlo hhi

/-- Bytes written right behind known ones lengthen the known run. -/
theorem Memory.Known.putBytes_extend {m : Memory} {lo off : Nat} (h : Memory.Known m lo off) (bs : List Byte) :
    Memory.Known (Memory.putBytes m off bs) lo (off + bs.length) := by
  intro a hlo hhi
  by_cases ha : a < off
  · exact h.putBytes off bs a hlo ha
  · rw [Memory.byteAt_putBytes, if_pos (by omega)]
    simp [List.getElem?_eq_getElem (show a - off < bs.length by omega)]

/-- An empty range has no byte that could be unknown. -/
theorem Memory.known_empty (m : Memory) {lo hi : Nat} (h : hi ≤ lo) : Memory.Known m lo hi :=
  fun _ h1 h2 => absurd h2 (by omega)

/-- A known run is known from any later start. -/
theorem Memory.Known.mono {m : Memory} {lo lo' hi : Nat} (h : Memory.Known m lo hi) (hl : lo ≤ lo') :
    Memory.Known m lo' hi :=
  fun a h1 h2 => h a (Nat.le_trans hl h1) h2

theorem State.chunkLength_le_cap (s : State) : s.chunkLength ≤ s.cap := by
  unfold State.chunkLength
  omega

/-- A chunk is not empty while a byte is still to deliver and one is unread. -/
theorem State.one_le_chunkLength (s : State) (hrem : s.rem ≠ 0#56) (hc : s.cur < s.cap) : 1 ≤ s.chunkLength := by
  have hpos : s.rem.toNat ≠ 0 := fun h => hrem (BitVec.eq_of_toNat_eq h)
  unfold State.chunkLength
  omega

/-- Consuming a chunk moves its bytes from REM to ACC and keeps their sum, so long as that fits 56 bits (10_state R28). -/
theorem State.consumeChunk_sum (s : State) (hn : s.nch ≤ s.rem.toNat) (hlt : s.acc.toNat + s.rem.toNat < 2 ^ 56) :
    s.consumeChunk.acc.toNat + s.consumeChunk.rem.toNat = s.acc.toNat + s.rem.toNat := by
  simp only [State.consumeChunk_acc, State.consumeChunk_rem, BitVec.toNat_ofNat]
  omega

namespace StepRow

variable {s t : State}

/-- 20_memory R39: no row changes the parameters. -/
theorem cfg_eq (h : StepRow s t) : t.cfg = s.cfg := by
  cases h <;> simp

theorem cap_eq (h : StepRow s t) : t.cap = s.cap := congrArg Config.cap h.cfg_eq

/-- Every row takes one move of the host. -/
theorem inputs_eq (h : StepRow s t) : t.inputs = s.inputs.tail := by
  cases h <;> simp

theorem buf_wf (h : StepRow s t) (hs : s.Inv) : Memory.wf t.buf := by
  cases h with
  | refillWord => exact Memory.putBytes_wf _ _ hs.bufWf
  | _ => simpa using hs.bufWf

theorem buf_within (h : StepRow s t) (hs : s.Inv) : Memory.within t.buf t.cap := by
  rw [h.cap_eq]
  cases h with
  | refillWord _ _ hk =>
    refine Memory.putBytes_within _ hs.bufWithin ?_
    rw [bytesBO_length, State.cap, Config.cap]
    omega
  | _ => simpa using hs.bufWithin

theorem cur_le (h : StepRow s t) (hs : s.Inv) : t.cur ≤ t.cap := by
  rw [h.cap_eq]
  cases h with
  | xferAck _ _ _ _ _ hm => exact (memRead_ok hm).1
  | reset | seed | refillEnd => simp
  | _ => simpa using hs.curLe

theorem k_le (h : StepRow s t) (hs : s.Inv) : t.k ≤ t.cfg.capWords := by
  rw [h.cfg_eq]
  cases h with
  | refillWord _ _ hk => simpa using hk
  | reset | loopRefill => simp
  | _ => simpa using hs.kLe

theorem nch_le (h : StepRow s t) (hs : s.Inv) : t.nch ≤ t.cap := by
  rw [h.cap_eq]
  cases h with
  | loopXfer => simpa using s.chunkLength_le_cap
  | reset => simp
  | _ => simpa using hs.nchLe

/-- A block that is busy after a step has accepted a READ in it, or was busy before and was not reset. -/
theorem enters_or_continues (h : StepRow s t) (hb : t.fsm ≠ .idle) :
    (t.acc = 0#56 ∧ acceptedWords t.log ≠ acceptedWords s.log) ∨ (s.hostInput.reset = false ∧ s.fsm ≠ .idle) := by
  cases h with
  | read => exact .inl (by simp)
  | loopRefill hr hf | loopXfer hr hf | refillWord hr hf | refillEnd hr hf | xferWaits hr hf | xferAck hr hf =>
    exact .inr ⟨hr, by simp [hf]⟩
  | idleQuiet _ hf | seed _ hf | next _ hf => exact absurd hf (by simpa using hb)
  | _ => simp at hb

/-- ACC + REM stays as it is from READ's acceptance to its end (10_state R28). -/
theorem sum_eq (h : StepRow s t) (hr : s.hostInput.reset = false) (hf : s.fsm ≠ .idle)
    (hlt : s.acc.toNat + s.rem.toNat < 2 ^ 56) : t.acc.toNat + t.rem.toNat = s.acc.toNat + s.rem.toNat := by
  cases h with
  | reset h' => simp [hr] at h'
  | idleQuiet _ h' | seed _ h' | next _ h' | read _ h' | write _ h' | illegal _ h' => exact absurd h' hf
  | xferAck _ _ _ _ hn => exact State.consumeChunk_sum (s.consumeInput.pushLog _) hn hlt
  | _ => simp

/-- ACC and REM together fit 56 bits while a READ is in progress (10_state R28). -/
theorem sum_lt (h : StepRow s t) (hs : s.Inv) (hb : t.fsm ≠ .idle) : t.acc.toNat + t.rem.toNat < 2 ^ 56 := by
  rcases h.enters_or_continues hb with ⟨hacc, _⟩ | ⟨hr, hf⟩
  · simpa [hacc] using t.rem.isLt
  · rw [h.sum_eq hr hf (hs.sumLt hf)]
    exact hs.sumLt hf

/-- Buffer validity (10_state R22): a refill ends with the whole buffer written, and every other row moves CUR only
upwards or writes known bytes. -/
theorem known (h : StepRow s t) (hs : s.Inv) : Memory.Known t.buf t.cur t.cap := by
  rw [h.cap_eq]
  cases h with
  | reset | seed => exact Memory.known_empty _ (by simp)
  | refillWord => exact hs.known.putBytes _ _
  | refillEnd _ hf hk =>
    obtain ⟨_, _, hwritten⟩ := hs.refill hf
    rw [hk] at hwritten
    exact hwritten
  | xferAck => exact hs.known.mono (by simp)
  | _ => simpa using hs.known

/-- In REFILL the buffer was exhausted, a byte is still to deliver, and the first K words are written. -/
theorem refill_inv (h : StepRow s t) (hs : s.Inv) (hf : t.fsm = .refill) :
    t.cur = t.cap ∧ t.rem ≠ 0#56 ∧ Memory.Known t.buf 0 (8 * t.k) := by
  cases h with
  | loopRefill _ _ hrem hc => exact ⟨by simpa using hc, by simpa using hrem, Memory.known_empty _ (by simp)⟩
  | refillWord _ hf _ =>
    obtain ⟨hc, hrem, hwritten⟩ := hs.refill hf
    refine ⟨by simpa using hc, by simpa using hrem, ?_⟩
    simpa [Nat.mul_add] using hwritten.putBytes_extend (bytesBO s.cfg.byteOrder (engineStep s.gen).2)
  | idleQuiet _ h' | seed _ h' | next _ h' | xferWaits _ h' => simp [h'] at hf
  | _ => simp at hf

/-- In XFER the chunk on offer is not empty and has the length R83 gives. -/
theorem xfer_inv (h : StepRow s t) (hs : s.Inv) (hf : t.fsm = .xfer) : 1 ≤ t.nch ∧ t.nch = t.chunkLength := by
  cases h with
  | loopXfer _ _ hrem hc => exact ⟨s.one_le_chunkLength hrem hc, rfl⟩
  | xferWaits _ hf _ => exact hs.xfer hf
  | idleQuiet _ h' | seed _ h' | next _ h' | refillWord _ h' => simp [h'] at hf
  | _ => simp at hf

/-- Every row keeps the invariant. -/
theorem inv (h : StepRow s t) (hs : s.Inv) : t.Inv where
  cfgWf := h.cfg_eq ▸ hs.cfgWf
  bufWf := h.buf_wf hs
  bufWithin := h.buf_within hs
  nonZero := h.gen_nonZero hs.nonZero
  curLe := h.cur_le hs
  kLe := h.k_le hs
  nchLe := h.nch_le hs
  sumLt := h.sum_lt hs
  known := h.known hs
  refill := h.refill_inv hs
  xfer := h.xfer_inv hs

end StepRow

/-- Settles O41: each part of the invariant is kept by every row. -/
theorem invariantKeptByEveryStep : Obligations.InvariantKeptByEveryStep := by
  unfold Obligations.InvariantKeptByEveryStep
  exact fun s t hs h => (stepRow_of_step h).inv hs

/-! ## After reset -/

/-- Settles O40: nothing is unread and no command is in progress, so only the ranges and the seed are to check. -/
theorem invariantAtReset : Obligations.InvariantAtReset := by
  unfold Obligations.InvariantAtReset
  intro cfg hwf
  exact {
    cfgWf := hwf
    bufWf := List.Pairwise.nil
    bufWithin := List.forall_mem_nil _
    nonZero := GeneratorState.seed_nonZero
    curLe := Nat.le_refl _
    kLe := Nat.zero_le _
    nchLe := Nat.zero_le _
    sumLt := fun h => absurd rfl h
    known := Memory.known_empty _ (Nat.le_refl _)
    refill := nofun
    xfer := nofun }

/-- Settles O35: the seed's words are `word_seed`; the registers are as `State.resetOf` sets them. -/
theorem stateAfterReset : Obligations.StateAfterReset := by
  unfold Obligations.StateAfterReset
  refine ⟨fun _ => GeneratorState.word_seed, fun cfg => ⟨?pointer, ?cursor, ?ready, ?rem, ?k, ?nch, ?acc, ?buf⟩,
    ?reference, ?referenceCursor⟩
  case buf => exact Memory.byteAt_nil
  all_goals rfl

/-! ## Which rows write which state (10_state R17 to R23) -/

namespace StepRow

variable {s t : State}

/-- The engine is written by reset, SEED, NEXT and the refill word (10_state R17, R18). -/
theorem gen_writers (h : StepRow s t) (hne : t.gen ≠ s.gen) :
    s.hostInput.reset = true ∨
      (s.fsm = .idle ∧ ∃ c, s.hostInput.word = some c ∧ (decode c = .instr .seed ∨ decode c = .instr .next)) ∨
      (s.fsm = .refill ∧ s.k < s.cfg.capWords) := by
  cases h with
  | reset hr => exact .inl hr
  | seed _ hf hw hd => exact .inr (.inl ⟨hf, _, hw, .inl hd⟩)
  | next _ hf hw hd => exact .inr (.inl ⟨hf, _, hw, .inr hd⟩)
  | refillWord _ hf hk => exact .inr (.inr ⟨hf, hk⟩)
  | _ => simp at hne

/-- BUF is written by the refill word alone (10_state R20). -/
theorem buf_writers (h : StepRow s t) (hne : t.buf ≠ s.buf) :
    s.hostInput.reset = false ∧ s.fsm = .refill ∧ s.k < s.cfg.capWords := by
  cases h with
  | refillWord hr hf hk => exact ⟨hr, hf, hk⟩
  | _ => simp at hne

/-- CUR is written by reset, SEED, the end of a refill and an ACK (10_state R21). -/
theorem cur_writers (h : StepRow s t) (hne : t.cur ≠ s.cur) :
    s.hostInput.reset = true ∨
      (s.fsm = .idle ∧ ∃ c, s.hostInput.word = some c ∧ decode c = .instr .seed) ∨
      (s.fsm = .refill ∧ s.k = s.cfg.capWords) ∨ (s.fsm = .xfer ∧ s.hostInput.ans = some .ack) := by
  cases h with
  | reset hr => exact .inl hr
  | seed _ hf hw hd => exact .inr (.inl ⟨hf, _, hw, hd⟩)
  | refillEnd _ hf hk => exact .inr (.inr (.inl ⟨hf, hk⟩))
  | xferAck _ hf ha => exact .inr (.inr (.inr ⟨hf, ha⟩))
  | _ => simp at hne

/-- REM and ACC are written by reset, the acceptance of READ and an ACK (10_state R23). -/
theorem rem_acc_writers (h : StepRow s t) (hne : t.rem ≠ s.rem ∨ t.acc ≠ s.acc) :
    s.hostInput.reset = true ∨
      (s.fsm = .idle ∧ ∃ c n, s.hostInput.word = some c ∧ decode c = .instr (.read n)) ∨
      (s.fsm = .xfer ∧ s.hostInput.ans = some .ack) := by
  cases h with
  | reset hr => exact .inl hr
  | read _ hf hw hd => exact .inr (.inl ⟨hf, _, _, hw, hd⟩)
  | xferAck _ hf ha => exact .inr (.inr ⟨hf, ha⟩)
  | _ => simp at hne

/-- K is written by reset, READ_LOOP and the refill word (10_state R23). -/
theorem k_writers (h : StepRow s t) (hne : t.k ≠ s.k) :
    s.hostInput.reset = true ∨ s.fsm = .readLoop ∨ (s.fsm = .refill ∧ s.k < s.cfg.capWords) := by
  cases h with
  | reset hr => exact .inl hr
  | loopRefill _ hf => exact .inr (.inl hf)
  | refillWord _ hf hk => exact .inr (.inr ⟨hf, hk⟩)
  | _ => simp at hne

/-- NCH is written by reset and READ_LOOP (10_state R23). -/
theorem nch_writers (h : StepRow s t) (hne : t.nch ≠ s.nch) : s.hostInput.reset = true ∨ s.fsm = .readLoop := by
  cases h with
  | reset hr => exact .inl hr
  | loopXfer _ hf => exact .inr hf
  | _ => simp at hne

end StepRow

/-- Settles O44: one lemma for each state element, by the rows. -/
theorem onlyTheseStepsWrite : Obligations.OnlyTheseStepsWrite := by
  unfold Obligations.OnlyTheseStepsWrite
  intro s t h
  have row := stepRow_of_step h
  exact ⟨row.gen_writers, row.buf_writers, row.cur_writers, row.rem_acc_writers, row.k_writers, row.nch_writers⟩

/-! ## The record is never read (log entry 4) -/

section
variable (s : State) (l : List Event)

@[simp] theorem State.withLog_withLog (l' : List Event) : (s.withLog l).withLog l' = s.withLog l' := rfl
@[simp] theorem State.withLog_hostInput : (s.withLog l).hostInput = s.hostInput := rfl
@[simp] theorem State.withLog_chunkLength : (s.withLog l).chunkLength = s.chunkLength := rfl
@[simp] theorem State.withLog_consumeInput : (s.withLog l).consumeInput = s.consumeInput.withLog l := rfl
@[simp] theorem State.withLog_withGen (g : GeneratorState) : (s.withLog l).withGen g = (s.withGen g).withLog l := rfl
@[simp] theorem State.withLog_withBuf (m : Memory) : (s.withLog l).withBuf m = (s.withBuf m).withLog l := rfl
@[simp] theorem State.withLog_withCur (v : Nat) : (s.withLog l).withCur v = (s.withCur v).withLog l := rfl
@[simp] theorem State.withLog_withFsm (f : Fsm) : (s.withLog l).withFsm f = (s.withFsm f).withLog l := rfl
@[simp] theorem State.withLog_withK (v : Nat) : (s.withLog l).withK v = (s.withK v).withLog l := rfl
@[simp] theorem State.withLog_withNch (v : Nat) : (s.withLog l).withNch v = (s.withNch v).withLog l := rfl
@[simp] theorem State.withLog_seedEngine : (s.withLog l).seedEngine = s.seedEngine.withLog l := rfl
@[simp] theorem State.withLog_loadRead (n : Len) : (s.withLog l).loadRead n = (s.loadRead n).withLog l := rfl
@[simp] theorem State.withLog_consumeChunk : (s.withLog l).consumeChunk = s.consumeChunk.withLog l := rfl

/-- An event is added to whatever record stands behind the state. -/
@[simp] theorem State.withLog_pushLog (e : Event) : (s.withLog l).pushLog e = (s.pushLog e).withLog (l ++ [e]) := rfl
@[simp] theorem State.withLog_logAccepted (c : Word) :
    (s.withLog l).logAccepted c = (s.logAccepted c).withLog (l ++ [.accepted c]) := rfl
@[simp] theorem State.withLog_respond (st : Status) (r : Word) (n : Len) :
    (s.withLog l).respond st r n = (s.respond st r n).withLog (l ++ [.responded ⟨st, r, n⟩]) := rfl
@[simp] theorem State.withLog_raise (e : BlockError) (info : Len) :
    (s.withLog l).raise e info = (s.raise e info).withLog (l ++ [.responded ⟨e.status, 0#64, info⟩]) := rfl
@[simp] theorem State.withLog_takeReset :
    (s.withLog l).takeReset = s.takeReset.withLog (l ++ [.resetTaken (decide (s.fsm ≠ .idle))]) := rfl

end

/-- A row adds its events to the record, and stays a row, with the same events, over another record. -/
theorem StepRow.withLog {s t : State} (h : StepRow s t) :
    ∃ new, t.log = s.log ++ new ∧ ∀ l, StepRow (s.withLog l) (t.withLog (l ++ new)) := by
  cases h with
  | reset hr => exact ⟨_, rfl, fun l => by simpa using StepRow.reset (s := s.withLog l) hr⟩
  | idleQuiet hr hf hw =>
    exact ⟨[], by simp, fun l => by simpa using StepRow.idleQuiet (s := s.withLog l) hr hf hw⟩
  | seed hr hf hw hd =>
    exact ⟨_, List.append_assoc _ _ _, fun l => by simpa using StepRow.seed (s := s.withLog l) hr hf hw hd⟩
  | next hr hf hw hd =>
    exact ⟨_, List.append_assoc _ _ _, fun l => by simpa using StepRow.next (s := s.withLog l) hr hf hw hd⟩
  | read hr hf hw hd => exact ⟨_, rfl, fun l => by simpa using StepRow.read (s := s.withLog l) hr hf hw hd⟩
  | write hr hf hw hd =>
    exact ⟨_, List.append_assoc _ _ _, fun l => by simpa using StepRow.write (s := s.withLog l) hr hf hw hd⟩
  | illegal hr hf hw hd =>
    exact ⟨_, List.append_assoc _ _ _,
      fun l => by simpa using StepRow.illegal (s := s.withLog l) hr hf hw hd⟩
  | loopDone hr hf hrem => exact ⟨_, rfl, fun l => by simpa using StepRow.loopDone (s := s.withLog l) hr hf hrem⟩
  | loopRefill hr hf hrem hc =>
    exact ⟨[], by simp, fun l => by simpa using StepRow.loopRefill (s := s.withLog l) hr hf hrem hc⟩
  | loopXfer hr hf hrem hc =>
    exact ⟨[], by simp, fun l => by simpa using StepRow.loopXfer (s := s.withLog l) hr hf hrem hc⟩
  | refillWord hr hf hk =>
    exact ⟨[], by simp, fun l => by simpa using StepRow.refillWord (s := s.withLog l) hr hf hk⟩
  | refillEnd hr hf hk => exact ⟨[], by simp, fun l => by simpa using StepRow.refillEnd (s := s.withLog l) hr hf hk⟩
  | xferWaits hr hf ha => exact ⟨[], by simp, fun l => by simpa using StepRow.xferWaits (s := s.withLog l) hr hf ha⟩
  | xferAck hr hf ha h1 hn hm =>
    exact ⟨_, rfl, fun l => by simpa using StepRow.xferAck (s := s.withLog l) hr hf ha h1 hn hm⟩
  | xferFault hr hf ha h1 hn hm =>
    exact ⟨_, List.append_assoc _ _ _,
      fun l => by simpa using StepRow.xferFault (s := s.withLog l) hr hf ha h1 hn hm⟩

/-- Accepting a word never stops the block. -/
theorem accept_ne_fault (c : Word) (s : State) (f : Fault) : accept c s ≠ .fault f := by
  cases hd : decode c with
  | illegal x => simp [accept_illegal s hd]
  | instr i => rw [accept_instr s hd]; cases i <;> simp

/-- READ_LOOP stops with CUR above CAP while a byte is still to deliver, and only then. -/
theorem readLoopStep_fault_iff {s : State} {f : Fault} :
    readLoopStep s = .fault f ↔ s.rem ≠ 0#56 ∧ s.cap < s.cur ∧ .noRow .readLoop = f := by
  unfold readLoopStep
  split_ifs with hrem heq hlt
  · simp [hrem]
  · simp [heq]
  · simp [Nat.le_of_lt hlt]
  · simp [hrem, show s.cap < s.cur by omega]

/-- REFILL stops with K above CAP_WORDS, and only then. -/
theorem refillStep_fault_iff {s : State} {f : Fault} :
    refillStep s = .fault f ↔ s.cfg.capWords < s.k ∧ .noRow .refill = f := by
  unfold refillStep
  split_ifs with hlt heq
  · simp [refillWord_eq hlt, Nat.le_of_lt hlt]
  · simp [heq]
  · simp [show s.cfg.capWords < s.k by omega]

/-- An answer in XFER stops the block when NCH is out of its range, or when the chunk cannot be read. -/
theorem xferStep_fault_iff {s : State} {a : Answer} {f : Fault} :
    xferStep s a = .fault f ↔
      (¬ (1 ≤ s.nch ∧ s.nch ≤ s.rem.toNat) ∧ .noRow .xfer = f) ∨
      ((1 ≤ s.nch ∧ s.nch ≤ s.rem.toNat) ∧ memRead s.cfg s.buf s.cur s.nch = .error f) := by
  unfold xferStep
  split_ifs with hb
  · cases hm : memRead s.cfg s.buf s.cur s.nch with
    | error f' => simp [hb]
    | ok bs => cases a <;> simp [hb]
  · simp [hb]

/-- When a step stops the machine, and with which fault (log entries 5 and 7). -/
theorem step_fault_iff {s : State} {f : Fault} :
    step s = .fault f ↔ s.hostInput.reset = false ∧
      ((s.fsm = .readLoop ∧ s.rem ≠ 0#56 ∧ s.cap < s.cur ∧ .noRow .readLoop = f) ∨
       (s.fsm = .refill ∧ s.cfg.capWords < s.k ∧ .noRow .refill = f) ∨
       (s.fsm = .xfer ∧ ∃ a, s.hostInput.ans = some a ∧
         ((¬ (1 ≤ s.nch ∧ s.nch ≤ s.rem.toNat) ∧ .noRow .xfer = f) ∨
          ((1 ≤ s.nch ∧ s.nch ≤ s.rem.toNat) ∧ memRead s.cfg s.buf s.cur s.nch = .error f)))) := by
  cases hr : s.hostInput.reset with
  | true => simp [step_reset hr]
  | false =>
    rw [step_fsm hr]
    cases hf : s.fsm with
    | idle =>
      cases hw : s.hostInput.word with
      | none => simp [fsmStep_idle_none (s := s.consumeInput) hf hw]
      | some c => simp [fsmStep_idle_some (s := s.consumeInput) hf hw, accept_ne_fault]
    | readLoop => simp [fsmStep_readLoop (s := s.consumeInput) hf, readLoopStep_fault_iff]
    | refill => simp [fsmStep_refill (s := s.consumeInput) hf, refillStep_fault_iff]
    | xfer =>
      cases ha : s.hostInput.ans with
      | none => simp [fsmStep_xfer_none (s := s.consumeInput) hf ha]
      | some a => simp [fsmStep_xfer_some (s := s.consumeInput) hf ha, xferStep_fault_iff]

/-- Settles O48: the rows carry over to another record, and no fault's condition mentions the record. -/
theorem recordIsNeverRead : Obligations.RecordIsNeverRead := by
  unfold Obligations.RecordIsNeverRead
  refine fun s l => ⟨fun t h => ?next, fun f h => ?fault⟩
  case next =>
    obtain ⟨new, hlog, hrow⟩ := (stepRow_of_step h).withLog
    exact ⟨new, hlog, step_of_stepRow (hrow l)⟩
  case fault =>
    rw [step_fault_iff] at h ⊢
    exact h

/-! ## Runs without reset and without a new command -/

/-- A step only adds to the record. -/
theorem step_log {s t : State} (h : step s = .next t) : ∃ new, t.log = s.log ++ new := by
  obtain ⟨new, hlog, _⟩ := (stepRow_of_step h).withLog
  exact ⟨new, hlog⟩

/-- A run only adds to the record. -/
theorem run_log {n : Nat} {s u : State} (h : run n s = .next u) : ∃ new, u.log = s.log ++ new := by
  induction n generalizing s with
  | zero => cases h; exact ⟨[], by simp⟩
  | succ n ih =>
    obtain ⟨t, hst, htu⟩ := run_succ_inv h
    obtain ⟨new, hnew⟩ := step_log hst
    obtain ⟨new', hnew'⟩ := ih htu
    exact ⟨new ++ new', by rw [hnew', hnew, List.append_assoc]⟩

/-- A run that accepts no word accepts none in its first step, and none after it. -/
theorem acceptedWords_split {n : Nat} {s t u : State} (hst : step s = .next t) (htu : run n t = .next u)
    (h : acceptedWords u.log = acceptedWords s.log) :
    acceptedWords t.log = acceptedWords s.log ∧ acceptedWords u.log = acceptedWords t.log := by
  obtain ⟨new, hnew⟩ := step_log hst
  obtain ⟨new', hnew'⟩ := run_log htu
  rw [hnew', hnew] at h
  obtain ⟨h1, h2⟩ : acceptedWords new = [] ∧ acceptedWords new' = [] := by simpa using h
  exact ⟨by simp [hnew, h1], by simp [hnew', h2]⟩

/-- The first of `n + 1` moves without reset, and the rest of them. -/
theorem State.NoReset.succ {n : Nat} {s t : State} (h : s.NoReset (n + 1)) (hst : step s = .next t) :
    s.hostInput.reset = false ∧ t.NoReset n := by
  have hin := (stepRow_of_step hst).inputs_eq
  unfold State.NoReset State.hostInput at *
  rw [hin]
  cases hi : s.inputs with
  | nil => simp [HostInput.quiet]
  | cons i rest => simpa [hi] using h

/-- A property that every step keeps in which no reset is asserted and no word accepted holds at the end of a run of such
steps. -/
theorem run_keeps {P : State → Prop}
    (hstep : ∀ s t, s.hostInput.reset = false → step s = .next t → acceptedWords t.log = acceptedWords s.log → P s → P t)
    {n : Nat} {s u : State} (hr : s.NoReset n) (h : run n s = .next u)
    (ha : acceptedWords u.log = acceptedWords s.log) (hs : P s) : P u := by
  induction n generalizing s with
  | zero => cases h; exact hs
  | succ n ih =>
    obtain ⟨t, hst, htu⟩ := run_succ_inv h
    obtain ⟨hreset, hrest⟩ := hr.succ hst
    obtain ⟨ha1, ha2⟩ := acceptedWords_split hst htu ha
    exact ih hrest htu ha2 (hstep s t hreset hst ha1 hs)

/-- `s` is IDLE or in a READ of `n` bytes: what is delivered and what is left make up `n` (10_state R28). -/
def State.InReadOf (n : Len) (s : State) : Prop := s.fsm ≠ .idle → s.acc.toNat + s.rem.toNat = n.toNat

/-- The acceptance of READ begins such a READ. -/
theorem inReadOf_accepted (n : Len) (s : State) : ((s.loadRead n).withFsm .readLoop).InReadOf n := by
  simp [State.InReadOf]

/-- Without reset and without a new command a step stays in the READ or ends it. -/
theorem step_inReadOf {n : Len} {s t : State} (h : step s = .next t)
    (ha : acceptedWords t.log = acceptedWords s.log) (hs : s.InReadOf n) : t.InReadOf n := by
  intro hb
  have row := stepRow_of_step h
  rcases row.enters_or_continues hb with ⟨_, hnew⟩ | ⟨hr, hf⟩
  · exact absurd ha hnew
  · rw [row.sum_eq hr hf (hs hf ▸ n.isLt), hs hf]

/-- Settles O46: the acceptance makes ACC + REM the READ's LEN, and every later step of the READ keeps the sum. -/
theorem accPlusRemIsLen : Obligations.AccPlusRemIsLen := by
  unfold Obligations.AccPlusRemIsLen
  intro s t u n k _ _ hexec hr hrun ha hb
  cases hexec
  exact run_keeps (fun _ _ _ => step_inReadOf) hr hrun ha (inReadOf_accepted n s) hb

/-! ## The accept step -/

/-- Settles O15: the accept step runs what the word decodes to. -/
theorem stepRunsDecodedCommand : Obligations.StepRunsDecodedCommand := by
  unfold Obligations.StepRunsDecodedCommand
  intro s c a i hf hi hd
  rw [step_accept (by rw [hi]) hf (by rw [hi]), accept_instr _ hd]

end Sys2Proof.Machine
end

section
/-! PROOFS. 20_memory: the bytes of a word, the fixed parameters, the first refill after SEED. -/

namespace Sys2Proof.Machine

/-! ## The bytes of a word (20_memory R38) -/

/-- A byte field of a word, as a number. -/
theorem extractByte_eq_ofNat (w : Word) (start : Nat) :
    w.extractLsb' start 8 = BitVec.ofNat 8 (w.toNat / 2 ^ start) := by
  rw [BitVec.extractLsb', Nat.shiftRight_eq_div_pow]

/-- The byte at place `j` of `bytes_LE` is the field that begins at bit `8 j`. -/
theorem bytesLE_eq_map (w : Word) : bytesLE w = (List.range 8).map (fun j => w.extractLsb' (8 * j) 8) := rfl

/-- The two byte orders are each other's reverse. -/
theorem bytesBE_eq_reverse (w : Word) : bytesBE w = (bytesLE w).reverse := rfl

theorem bytesLE_getElem? (w : Word) {j : Nat} (hj : j < 8) :
    (bytesLE w)[j]? = some (BitVec.ofNat 8 (w.toNat / 2 ^ (8 * j))) := by
  rw [bytesLE_eq_map, List.getElem?_map, List.getElem?_range hj, Option.map_some, extractByte_eq_ofNat]

theorem bytesBE_getElem? (w : Word) {j : Nat} (hj : j < 8) :
    (bytesBE w)[j]? = some (BitVec.ofNat 8 (w.toNat / 2 ^ (8 * (7 - j)))) := by
  have hlen : (bytesLE w).length = 8 := bytesBO_length .le w
  rw [bytesBE_eq_reverse, List.getElem?_reverse (by omega), hlen]
  exact bytesLE_getElem? w (by omega)

/-- Settles O14: place `j` of `bytes_LE` is field `j` of the word, and `bytes_BE` is its reverse. -/
theorem bytesOfAWord : Obligations.BytesOfAWord := by
  unfold Obligations.BytesOfAWord
  exact fun w => ⟨bytesBO_length .le w, bytesBO_length .be w,
    fun _ => bytesLE_getElem? w, fun _ => bytesBE_getElem? w⟩

/-! ## The two parameters (20_memory R39) -/

/-- Settles O43: no row of the transition relation changes the parameters. -/
theorem parametersNeverChange : Obligations.ParametersNeverChange := by
  unfold Obligations.ParametersNeverChange
  exact fun _ _ h => (stepRow_of_step h).cfg_eq

/-! ## A READ that finds no unread byte (20_memory R52, 41_stream_buffer R83) -/

/-- Every command's word decodes to that command. -/
@[simp] theorem decode_encode (i : Instr) : decode (encode i) = .instr i := by
  cases i <;> simp [encode, decode]

/-- The step in which IDLE accepts the host's READ. -/
theorem step_read_accepted {s : State} (n : Len) (rest : List HostInput) (hf : s.fsm = .idle) :
    step (s.withInputs (⟨false, some (encode (.read n)), none⟩ :: rest)) =
      .next ((((s.withInputs rest).logAccepted (encode (.read n))).loadRead n).withFsm .readLoop) := by
  rw [step_accept (c := encode (.read n)) (by simp) (by simpa using hf) (by simp), accept_instr _ (decode_encode _),
    exec_read, State.withInputs_consumeInput]

/-- With every byte of BUF consumed, a READ of some bytes is in REFILL two steps after it was presented, at word 0 and
with the engine untouched. -/
theorem run_read_refills {s : State} {n : Len} {i : HostInput} (rest : List HostInput) (hf : s.fsm = .idle)
    (hc : s.cur = s.cap) (hn : n ≠ 0#56) (hi : i.reset = false) :
    ∃ u, run 2 (s.withInputs (⟨false, some (encode (.read n)), none⟩ :: i :: rest)) = .next u ∧
      u.fsm = .refill ∧ u.k = 0 ∧ u.gen = s.gen ∧ u.rem = n ∧ u.acc = 0#56 := by
  have haccept := step_read_accepted n (i :: rest) hf
  have hrefill := step_readLoop_refill
    (s := (((s.withInputs (i :: rest)).logAccepted (encode (.read n))).loadRead n).withFsm .readLoop)
    hi (by simp) (by simpa using hn) (by simpa using hc)
  exact ⟨_, (run_succ_next haccept).trans ((run_succ_next hrefill).trans (run_zero _)), by simp⟩

/-- Settles O31: SEED leaves CUR at CAP and the engine at the seed, so the READ finds no unread byte. -/
theorem readAfterSeedRefillsFirst : Obligations.ReadAfterSeedRefillsFirst := by
  unfold Obligations.ReadAfterSeedRefillsFirst
  intro s n i rest t hn hi hseed
  cases hseed
  exact run_read_refills rest (by simp) (by simp) hn hi

end Sys2Proof.Machine
end

section
/-! PROOFS. 30_encoding: the command word both ways, the opcode table, the response words, the assembler, the accept step of
READ, one response per command. -/

namespace Sys2Proof.Machine

/-! ## One response per accepted command (30_encoding R62, 70_reset_and_hazards R133) -/

/-- None of the events is an acceptance, a response or an abort: there is nothing in them for R62 to count. -/
structure Uncounted (l : List Event) : Prop where
  accepted  : acceptedWords l = []
  responses : responsesIn l = []
  aborts    : abortsIn l = 0

theorem uncounted_nil : Uncounted [] := ⟨rfl, rfl, rfl⟩

theorem uncounted_offered (bs : List Byte) (a : Answer) : Uncounted [.offered bs a] :=
  ⟨rfl, rfl, abortsIn_offered bs a []⟩

/-- What a step from `s` to `t` that records `new` does to the command in progress. `StepRow.progress` says that every step
is of one of these kinds. -/
inductive CommandProgress (s t : State) : List Event → Prop
  /-- Reset aborts the command, if there is one (70_reset_and_hazards R126). -/
  | reset (hr : s.hostInput.reset = true) (ht : t.fsm = .idle) :
      CommandProgress s t [.resetTaken (decide (s.fsm ≠ .idle))]
  /-- No command is in progress and none is presented. -/
  | waits (hr : s.hostInput.reset = false) (hf : s.fsm = .idle) (ht : t.fsm = .idle) : CommandProgress s t []
  /-- A READ is accepted. -/
  | begins (c : Word) (hr : s.hostInput.reset = false) (hf : s.fsm = .idle) (ht : t.fsm ≠ .idle) :
      CommandProgress s t [.accepted c]
  /-- Any other word is accepted, and answered in the same step. -/
  | answers (c : Word) (r : Response) (hr : s.hostInput.reset = false) (hf : s.fsm = .idle) (ht : t.fsm = .idle) :
      CommandProgress s t [.accepted c, .responded r]
  /-- The READ in progress goes on. -/
  | continues {l : List Event} (hl : Uncounted l) (hr : s.hostInput.reset = false) (hf : s.fsm ≠ .idle)
      (ht : t.fsm ≠ .idle) : CommandProgress s t l
  /-- The READ in progress ends with its response. -/
  | ends {l : List Event} (hl : Uncounted l) (r : Response) (hr : s.hostInput.reset = false) (hf : s.fsm ≠ .idle)
      (ht : t.fsm = .idle) : CommandProgress s t (l ++ [.responded r])

/-- Each row is of one kind. -/
theorem StepRow.progress {s t : State} (h : StepRow s t) : ∃ new, t.log = s.log ++ new ∧ CommandProgress s t new := by
  cases h with
  | reset hr => exact ⟨_, rfl, .reset hr (by simp)⟩
  | idleQuiet hr hf => exact ⟨[], by simp, .waits hr hf (by simpa using hf)⟩
  | seed hr hf | next hr hf =>
    exact ⟨_, List.append_assoc _ _ _, .answers _ _ hr hf (by simpa using hf)⟩
  | read hr hf => exact ⟨_, rfl, .begins _ hr hf (by simp)⟩
  | write hr hf | illegal hr hf => exact ⟨_, List.append_assoc _ _ _, .answers _ _ hr hf (by simp)⟩
  | loopDone hr hf => exact ⟨_, rfl, .ends uncounted_nil _ hr (by simp [hf]) (by simp)⟩
  | loopRefill hr hf | loopXfer hr hf | refillWord hr hf | refillEnd hr hf | xferWaits hr hf =>
    exact ⟨[], by simp, .continues uncounted_nil hr (by simp [hf]) (by simp [hf])⟩
  | xferAck hr hf => exact ⟨_, rfl, .continues (uncounted_offered _ _) hr (by simp [hf]) (by simp)⟩
  | xferFault hr hf =>
    exact ⟨_, List.append_assoc _ _ _, .ends (uncounted_offered _ _) _ hr (by simp [hf]) (by simp)⟩

theorem State.pending_idle {s : State} (h : s.fsm = .idle) : s.pending = 0 := if_pos h

theorem State.pending_busy {s : State} (h : s.fsm ≠ .idle) : s.pending = 1 := if_neg h

namespace CommandProgress

variable {s t : State} {new : List Event}

/-- The words accepted in a step and the command in progress before it are the responses and aborts in the step and the
command in progress after it. -/
theorem count (h : CommandProgress s t new) :
    (acceptedWords new).length + s.pending = (responsesIn new).length + abortsIn new + t.pending := by
  cases h with
  | reset _ ht =>
    by_cases hf : s.fsm = .idle
    · simp [State.pending_idle, hf, ht]
    · simp [State.pending_busy hf, State.pending_idle ht, hf]
  | waits _ hf ht | answers _ _ _ hf ht => simp [State.pending_idle, hf, ht]
  | begins _ _ hf ht => simp [State.pending_idle hf, State.pending_busy ht]
  | continues hl _ hf ht => simp [State.pending_busy, hl.accepted, hl.responses, hl.aborts, hf, ht]
  | ends hl _ _ hf ht =>
    simp [State.pending_busy hf, State.pending_idle ht, hl.accepted, hl.responses, hl.aborts]

theorem balanced (h : CommandProgress s t new) (hlog : t.log = s.log ++ new) (hs : s.Balanced) : t.Balanced := by
  have hcount := h.count
  unfold State.Balanced at *
  simp only [hlog, acceptedWords_append, responsesIn_append, abortsIn_append, List.length_append]
  omega

theorem responses_length_le (h : CommandProgress s t new) : (responsesIn new).length ≤ 1 := by
  cases h with
  | continues hl | ends hl => simp [hl.responses]
  | _ => simp

theorem accepted_length_le (h : CommandProgress s t new) : (acceptedWords new).length ≤ 1 := by
  cases h with
  | continues hl | ends hl => simp [hl.accepted]
  | _ => simp

/-- A word is accepted only in IDLE (70_reset_and_hazards R131). -/
theorem accepted_eq_nil (h : CommandProgress s t new) (hb : s.fsm ≠ .idle) : acceptedWords new = [] := by
  cases h with
  | begins _ _ hf | answers _ _ _ hf => exact absurd hf hb
  | continues hl | ends hl => simp [hl.accepted]
  | _ => simp

/-- Reset emits no response (70_reset_and_hazards R126). -/
theorem responses_eq_nil (h : CommandProgress s t new) (hreset : s.hostInput.reset = true) : responsesIn new = [] := by
  cases h with
  | reset => simp
  | waits hr | begins _ hr | answers _ _ hr | continues _ hr | ends _ _ hr => simp [hr] at hreset

/-- Without reset, the response stands in the step that leaves IDLE behind a command, and in no other. -/
theorem responds_iff (h : CommandProgress s t new) (hreset : s.hostInput.reset = false) :
    (responsesIn new).length = 1 ↔ t.fsm = .idle ∧ (s.fsm ≠ .idle ∨ acceptedWords new ≠ []) := by
  cases h with
  | reset hr => simp [hr] at hreset
  | waits _ hf ht | begins _ _ hf ht | answers _ _ _ hf ht => simp [hf, ht]
  | continues hl _ hf ht | ends hl _ _ hf ht => simp [hl.responses, hf, ht]

end CommandProgress

/-- Settles O47: each kind of step keeps the count, and has its response where it ends a command. -/
theorem oneResponsePerCommand : Obligations.OneResponsePerCommand := by
  unfold Obligations.OneResponsePerCommand
  refine ⟨fun _ => rfl, fun s t hs h => ?balanced, fun s t h => ?events⟩
  case balanced =>
    obtain ⟨new, hlog, hp⟩ := (stepRow_of_step h).progress
    exact hp.balanced hlog hs
  case events =>
    obtain ⟨new, hlog, hp⟩ := (stepRow_of_step h).progress
    exact ⟨new, hlog, hp.responses_length_le, hp.accepted_length_le, hp.accepted_eq_nil, hp.responses_eq_nil,
      hp.responds_iff⟩

/-! ## The command word both ways (30_encoding R57, R60, R66) -/

/-- Settles O2: each command's word has the command's OP, and a LEN that `decode` takes as it stands. -/
theorem decodeInvertsEncode : Obligations.DecodeInvertsEncode := by
  unfold Obligations.DecodeInvertsEncode
  exact decode_encode

/-- A word decodes to a command exactly when it has the OP of the command's word and, but for WRITE, its LEN. -/
theorem decode_eq_instr_iff (c : Word) (i : Instr) :
    decode c = .instr i ↔
      opField c = opField (encode i) ∧ (i ≠ .write → lenField c = lenField (encode i)) := by
  unfold decode
  cases i <;> split_ifs <;> simp_all [encode]

theorem decode_eq_seed_iff (c : Word) : decode c = .instr .seed ↔ opField c = 0x01#8 ∧ lenField c = 0#56 := by
  simpa [encode] using decode_eq_instr_iff c .seed

theorem decode_eq_next_iff (c : Word) : decode c = .instr .next ↔ opField c = 0x02#8 ∧ lenField c = 0#56 := by
  simpa [encode] using decode_eq_instr_iff c .next

theorem decode_eq_read_iff (c : Word) (n : Len) :
    decode c = .instr (.read n) ↔ opField c = 0x03#8 ∧ lenField c = n := by
  simpa [encode] using decode_eq_instr_iff c (.read n)

theorem decode_eq_write_iff (c : Word) : decode c = .instr .write ↔ opField c = 0x04#8 := by
  simpa [encode] using decode_eq_instr_iff c .write

/-- OP compared as a bit vector is OP compared as a number. -/
theorem opField_eq_iff (c : Word) (op : BitVec 8) : opField c = op ↔ c.toNat / 2 ^ 56 = op.toNat := by
  rw [← BitVec.toNat_inj, opField_toNat]

/-- LEN compared as a bit vector is LEN compared as a number. -/
theorem lenField_eq_iff (c : Word) (len : Len) : lenField c = len ↔ c.toNat % 2 ^ 56 = len.toNat := by
  rw [← BitVec.toNat_inj, lenField_toNat]

/-- Settles O3: the fields that decoding tested are those of the command's word, and a word is its two fields. -/
theorem encodeInvertsDecode : Obligations.EncodeInvertsDecode := by
  unfold Obligations.EncodeInvertsDecode
  intro c i h
  refine ⟨fun hne => ?word, fun hwrite => ?opcode⟩
  case word =>
    obtain ⟨ho, hl⟩ := (decode_eq_instr_iff c i).mp h
    exact (word_ext ho (hl hne)).symm
  case opcode =>
    subst hwrite
    exact (opField_eq_iff c _).mp ((decode_eq_write_iff c).mp h)

/-- Settles O1: the eight words are closed, and `decode` computes. -/
theorem specWordsDecode : Obligations.SpecWordsDecode := by
  unfold Obligations.SpecWordsDecode
  decide

/-! ## The class of every word, and its row of the opcode table (30_encoding R57 to R59) -/

/-- The words that are no command (30_encoding R58, R59): each command has an OP of 1 to 4, and SEED and NEXT have LEN
zero. -/
theorem instr?_decode_eq_none {c : Word}
    (h : c.toNat / 2 ^ 56 = 0 ∨ 5 ≤ c.toNat / 2 ^ 56 ∨
      (c.toNat / 2 ^ 56 = 1 ∨ c.toNat / 2 ^ 56 = 2) ∧ c.toNat % 2 ^ 56 ≠ 0) : (decode c).instr? = none := by
  cases hd : decode c with
  | illegal x => rfl
  | instr i =>
    exfalso
    cases i with
    | seed =>
      obtain ⟨ho, hl⟩ := (decode_eq_seed_iff c).mp hd
      have hop : c.toNat / 2 ^ 56 = 1 := (opField_eq_iff c _).mp ho
      have hlen : c.toNat % 2 ^ 56 = 0 := (lenField_eq_iff c _).mp hl
      omega
    | next =>
      obtain ⟨ho, hl⟩ := (decode_eq_next_iff c).mp hd
      have hop : c.toNat / 2 ^ 56 = 2 := (opField_eq_iff c _).mp ho
      have hlen : c.toNat % 2 ^ 56 = 0 := (lenField_eq_iff c _).mp hl
      omega
    | read n =>
      have hop : c.toNat / 2 ^ 56 = 3 := (opField_eq_iff c _).mp ((decode_eq_read_iff c n).mp hd).1
      omega
    | write =>
      have hop : c.toNat / 2 ^ 56 = 4 := (opField_eq_iff c _).mp ((decode_eq_write_iff c).mp hd)
      omega

/-- A command's word matches the command's own row of the opcode table and no other. -/
theorem matchingRows_of_instr {c : Word} {i : Instr} (h : decode c = .instr i) :
    ∃ r, matchingRows c = [r] ∧ r.mnemonic = i.mnemonic := by
  rw [matchingRows_eq]
  cases i with
  | seed => simp [(decode_eq_seed_iff c).mp h, Instr.mnemonic]
  | next => simp [(decode_eq_next_iff c).mp h, Instr.mnemonic]
  | read n => simp [(decode_eq_read_iff c n).mp h, Instr.mnemonic]
  | write => simp [(decode_eq_write_iff c).mp h, Instr.mnemonic]

/-- A word that matched a row would have the fields that `decode` reads as that row's command. -/
theorem matchingRows_of_illegal {c : Word} {x : IllegalCause} (h : decode c = .illegal x) : matchingRows c = [] := by
  have hseed := mt (decode_eq_seed_iff c).mpr (by simp [h])
  have hnext := mt (decode_eq_next_iff c).mpr (by simp [h])
  have hread := mt (decode_eq_read_iff c (lenField c)).mpr (by simp [h])
  have hwrite := mt (decode_eq_write_iff c).mpr (by simp [h])
  rw [matchingRows_eq, if_neg hseed, if_neg hnext, if_neg fun ho => hread ⟨ho, rfl⟩, if_neg hwrite]
  rfl

/-- READ's LEN, from OP read as a number. -/
theorem decode_read {c : Word} (ho : c.toNat / 2 ^ 56 = 3) : decode c = .instr (.read (lenField c)) :=
  (decode_eq_read_iff c _).mpr ⟨(opField_eq_iff c _).mpr ho, rfl⟩

/-- Settles O4: one lemma for each class, read as numbers; the table's rows test the same fields as `decode`. -/
theorem decodeClassesAndTableRows : Obligations.DecodeClassesAndTableRows := by
  unfold Obligations.DecodeClassesAndTableRows
  refine fun c => ⟨fun ho hl => ?seed, fun ho hl => ?next, fun ho => ?read, fun ho => ?write,
    instr?_decode_eq_none, fun _ => matchingRows_of_instr, fun _ => matchingRows_of_illegal⟩
  case seed => exact (decode_eq_seed_iff c).mpr ⟨(opField_eq_iff c _).mpr ho, (lenField_eq_iff c _).mpr hl⟩
  case next => exact (decode_eq_next_iff c).mpr ⟨(opField_eq_iff c _).mpr ho, (lenField_eq_iff c _).mpr hl⟩
  case read => rw [decode_read ho, ← lenField_toNat, BitVec.ofNat_toNat, BitVec.setWidth_eq]
  case write => exact (decode_eq_write_iff c).mpr ((opField_eq_iff c _).mpr ho)

/-! ## The response words (30_encoding R61, R63) -/

/-- RESP1 is packed like a command word: the code above the COUNT. -/
theorem Response.resp1_toNat (r : Response) : r.resp1.toNat = r.status.code.toNat * 2 ^ 56 + r.count.toNat :=
  commandWord_toNat r.status.code r.count

/-- The upper 8 bits of RESP1 are the code. -/
theorem Response.resp1_div (r : Response) : r.resp1.toNat / 2 ^ 56 = r.status.code.toNat := by
  have hcount := r.count.isLt
  rw [r.resp1_toNat]
  omega

/-- Settles O6: the code is read back from RESP1 and is one of the table's four. -/
theorem responseWords : Obligations.ResponseWords := by
  unfold Obligations.ResponseWords
  refine fun r => ⟨rfl, r.resp1_toNat, ?code⟩
  rw [r.resp1_div]
  cases r.status <;> rfl

/-! ## The assembler (30_encoding R66) -/

/-- The well-formed lines. -/
theorem asmLine_wf_cases {l : AsmLine} (h : l.wf = true) :
    l = ⟨.seed, []⟩ ∨ l = ⟨.next, []⟩ ∨ (∃ n, n < 2 ^ 56 ∧ l = ⟨.read, [n]⟩) ∨ l = ⟨.write, []⟩ ∨
      (∃ n, l = ⟨.write, [n]⟩) ∨ ∃ w, w < 2 ^ 64 ∧ l = ⟨.cmd, [w]⟩ := by
  obtain ⟨op, operands⟩ := l
  unfold AsmLine.wf at h
  split at h <;> simp_all

/-- A line that is not well-formed is refused. -/
theorem assemble_of_not_wf {l : AsmLine} (h : l.wf = false) : assemble l = none := by
  simp [assemble, h]

theorem assemble_seed : assemble ⟨.seed, []⟩ = some (encode .seed) := rfl

theorem assemble_next : assemble ⟨.next, []⟩ = some (encode .next) := rfl

theorem assemble_read {n : Nat} (h : n < 2 ^ 56) :
    assemble ⟨.read, [n]⟩ = some (encode (.read (BitVec.ofNat 56 n))) := if_pos (decide_eq_true h)

theorem assemble_write : assemble ⟨.write, []⟩ = some (encode .write) := rfl

theorem assemble_write_len (n : Nat) : assemble ⟨.write, [n]⟩ = some (commandWord 0x04#8 (writeLen n)) := rfl

theorem assemble_cmd {w : Nat} (h : w < 2 ^ 64) : assemble ⟨.cmd, [w]⟩ = some (BitVec.ofNat 64 w) :=
  if_pos (decide_eq_true h)

/-- A command word whose LEN is a number that fits. -/
theorem commandWord_ofNat_toNat (op : BitVec 8) {n : Nat} (h : n < 2 ^ 56) :
    (commandWord op (BitVec.ofNat 56 n)).toNat = op.toNat * 2 ^ 56 + n := by
  rw [commandWord_toNat, BitVec.toNat_ofNat, Nat.mod_eq_of_lt h]

/-- The word of `WRITE n`, where n fits the LEN field. -/
theorem commandWord_writeLen_toNat {n : Nat} (h : n < 2 ^ 56) :
    (commandWord 0x04#8 (writeLen n)).toNat = 4 * 2 ^ 56 + n := by
  rw [writeLen, if_pos h, commandWord_ofNat_toNat _ h]
  rfl

/-- Settles O7: one equation of `assemble` for each form of a well-formed line, and `decode_encode` for its word. -/
theorem assembledLinesDecode : Obligations.AssembledLinesDecode := by
  unfold Obligations.AssembledLinesDecode
  refine fun l => ⟨assemble_of_not_wf, fun h => ?_⟩
  rcases asmLine_wf_cases h with rfl | rfl | ⟨n, hn, rfl⟩ | rfl | ⟨n, rfl⟩ | ⟨w, hw, rfl⟩
  · exact ⟨_, assemble_seed, by decide, decode_encode _⟩
  · exact ⟨_, assemble_next, by decide, decode_encode _⟩
  · exact ⟨_, assemble_read hn, n, rfl, commandWord_ofNat_toNat _ hn, decode_encode _⟩
  · exact ⟨_, assemble_write, decode_encode _, fun _ => by decide, nofun⟩
  · refine ⟨_, assemble_write_len n, (decode_eq_write_iff _).mpr (opField_commandWord _ _), nofun, fun m hm hlt => ?_⟩
    cases hm
    exact commandWord_writeLen_toNat hlt
  · refine ⟨_, assemble_cmd hw, ?_⟩
    simp only [BitVec.toNat_ofNat, Nat.mod_eq_of_lt hw]

/-! ## The accept step of READ (30_encoding R56, 41_stream_buffer R82) -/

/-- Settles O18: `exec` of READ loads its operand, and the operand of a word with OP 3 is its LEN. -/
theorem readAccept : Obligations.ReadAccept := by
  unfold Obligations.ReadAccept
  refine ⟨fun s n => ⟨_, exec_read n s, by simp [SameBytes]⟩, fun s c a hf hi ho => ?presented⟩
  case presented =>
    have hstep : step s = exec (.read (lenField c)) (s.consumeInput.logAccepted c) :=
      stepRunsDecodedCommand s c a _ hf hi (decode_read ho)
    exact ⟨_, hstep.trans (exec_read _ _), by simp [lenField_toNat]⟩

end Sys2Proof.Machine
end

section
/-! PROOFS. 40_engine: one engine step, the multiplier, the pointer, and the commands SEED and NEXT. -/

namespace Sys2Proof.Machine

/-! ## One engine step (40_engine R70, R71, R76) -/

/-- The step writes the word of R76 at the new pointer. -/
theorem engineStep_word_written (g : GeneratorState) :
    (engineStep g).1.word (g.p + 1#4) = nextWord (g.word g.p) (g.word (g.p + 1#4)) := by
  rw [engineStep_word, if_pos rfl]

/-- The step leaves every other word. -/
theorem engineStep_word_kept {g : GeneratorState} {i : BitVec 4} (h : i ≠ g.p + 1#4) :
    (engineStep g).1.word i = g.word i := by
  rw [engineStep_word, if_neg h]

/-- The output is the written word times MULT. -/
theorem engineStep_output_eq_written (g : GeneratorState) :
    (engineStep g).2 = (engineStep g).1.word (g.p + 1#4) * mult := by
  rw [engineStep_output, engineStep_word_written]

/-- The written word in R76's own terms, with the shifted word by its name `s1a`. -/
theorem engineStep_word_written_of_shifted {g : GeneratorState} {s1a new : Word}
    (hshifted : s1a = g.word (g.p + 1#4) ^^^ (g.word (g.p + 1#4) <<< 31))
    (hnew : new = s1a ^^^ (s1a >>> 11) ^^^ g.word g.p ^^^ (g.word g.p >>> 30)) :
    (engineStep g).1.word (g.p + 1#4) = new := by
  rw [engineStep_word_written, nextWord_eq, hnew, hshifted]

/-- The multiply by MULT as numbers: the low 64 bits of the product (40_engine R75). -/
theorem mul_mult_toNat (x : Word) : (x * mult).toNat = (x.toNat * 1181783497276652981) % 2 ^ 64 :=
  BitVec.toNat_mul x mult

/-- Settles O8: `nextWord` is R76's expression, and the step writes it at the new pointer alone. -/
theorem engineStepResult : Obligations.EngineStepResult := by
  unfold Obligations.EngineStepResult
  rintro g s0 s1 s1a new rfl rfl hshifted hnew
  have hwritten := engineStep_word_written_of_shifted hshifted hnew
  refine ⟨hwritten, ?pointer, ?output, fun i => engineStep_word_kept⟩
  case pointer => rw [engineStep_p, BitVec.toNat_add]; rfl
  case output => rw [engineStep_output_eq_written, hwritten, mul_mult_toNat]

/-- Settles O9: the written word is a function of the two words read, and the old pointer is not the new one. -/
theorem engineStepTouchesOneWord : Obligations.EngineStepTouchesOneWord := by
  unfold Obligations.EngineStepTouchesOneWord
  refine ⟨fun g i => ⟨engineStep_word_kept, engineStep_word_kept (ptr_ne_succ g.p)⟩, fun g h hp h0 h1 => ?result⟩
  case result =>
    have hwritten : (engineStep h).1.word (g.p + 1#4) = (engineStep g).1.word (g.p + 1#4) := by
      rw [← hp, engineStep_word_written, hp, h0, h1, engineStep_word_written]
    refine ⟨hwritten, ?_⟩
    rw [engineStep_output_eq_written, engineStep_output_eq_written, hp, hwritten]

/-! ## The multiplier (40_engine R75) -/

/-- The inverse of MULT modulo 2^64, which exists because MULT is odd. -/
def multInverse : Word := 0xBB91F78BDAC4C89D#64

theorem mult_mul_multInverse : mult * multInverse = 1#64 := by decide

/-- Multiplying by the inverse undoes the multiply, on either side. -/
theorem mul_mult_bijective : Function.Bijective (fun x : Word => x * mult) := by
  refine Function.bijective_iff_has_inverse.mpr ⟨fun y => y * multInverse, fun x => ?left, fun y => ?right⟩
  case left =>
    calc x * mult * multInverse = x * (mult * multInverse) := BitVec.mul_assoc ..
      _ = x := by rw [mult_mul_multInverse, BitVec.mul_one]
  case right =>
    calc y * multInverse * mult = y * (mult * multInverse) := by rw [BitVec.mul_assoc, BitVec.mul_comm mult]
      _ = y := by rw [mult_mul_multInverse, BitVec.mul_one]

/-- Settles O11: MULT has an inverse modulo 2^64. -/
theorem multiplierIsBijection : Obligations.MultiplierIsBijection := by
  unfold Obligations.MultiplierIsBijection
  exact ⟨mul_mult_toNat, mul_mult_bijective⟩

/-! ## The zero cases (40_engine R73, R80) -/

/-- No word but 0 is multiplied to 0. -/
theorem mul_mult_eq_zero_iff (x : Word) : x * mult = 0#64 ↔ x = 0#64 :=
  mul_mult_bijective.injective.eq_iff' (BitVec.zero_mul (x := mult))

/-- The output is 0 exactly when the written word is. -/
theorem engineStep_output_eq_zero_iff (g : GeneratorState) :
    (engineStep g).2 = 0#64 ↔ (engineStep g).1.word (g.p + 1#4) = 0#64 := by
  rw [engineStep_output_eq_written, mul_mult_eq_zero_iff]

/-- Two zero words give a zero word. -/
theorem engineStep_written_eq_zero {g : GeneratorState} (h0 : g.word g.p = 0#64) (h1 : g.word (g.p + 1#4) = 0#64) :
    (engineStep g).1.word (g.p + 1#4) = 0#64 := by
  rw [engineStep_word_written, h0, h1]
  decide

/-- The all-zero state stays all zero: the step writes a zero word and leaves the others. -/
theorem engineStep_word_eq_zero {g : GeneratorState} (h : ∀ i, g.word i = 0#64) (i : BitVec 4) :
    (engineStep g).1.word i = 0#64 := by
  by_cases hi : i = g.p + 1#4
  · rw [hi, engineStep_written_eq_zero (h _) (h _)]
  · rw [engineStep_word_kept hi, h]

/-- The seed with its first two words set to 0, the two that the next step reads. -/
def seedWithTwoZeros : GeneratorState := (GeneratorState.seed.setWord 0#4 0#64).setWord 1#4 0#64

/-- A step of it gives 0, and S[2] stays 3. -/
theorem engineStep_seedWithTwoZeros :
    (engineStep seedWithTwoZeros).2 = 0#64 ∧ (engineStep seedWithTwoZeros).1.word 2#4 = 3#64 := by decide

/-- Settles O10: the multiply maps only 0 to 0, and `nextWord` maps two zero words to 0. -/
theorem engineStepZeroCases : Obligations.EngineStepZeroCases := by
  unfold Obligations.EngineStepZeroCases
  refine ⟨engineStep_output_eq_zero_iff, fun g h0 h1 => ?twoZeros, fun g h => ?allZero, seedWithTwoZeros, ?witness⟩
  case twoZeros =>
    have hwritten := engineStep_written_eq_zero h0 h1
    exact ⟨hwritten, (engineStep_output_eq_zero_iff g).mpr hwritten⟩
  case allZero =>
    have hzero := engineStep_word_eq_zero h
    exact ⟨(engineStep_output_eq_zero_iff g).mpr (hzero _), hzero⟩
  case witness =>
    obtain ⟨houtput, hword⟩ := engineStep_seedWithTwoZeros
    exact ⟨houtput, 2#4, by rw [hword]; decide⟩

/-! ## The pointer (40_engine R79) -/

/-- Each step adds 1 to the 4-bit pointer. -/
theorem engineAfter_p (n : Nat) (g : GeneratorState) : (engineAfter n g).p = g.p + BitVec.ofNat 4 n := by
  induction n generalizing g with
  | zero => exact (BitVec.add_zero g.p).symm
  | succ n ih =>
    calc (engineAfter n (engineStep g).1).p = g.p + 1#4 + BitVec.ofNat 4 n := ih _
      _ = g.p + BitVec.ofNat 4 (n + 1) := by rw [BitVec.add_assoc, ← BitVec.ofNat_add, Nat.add_comm]

/-- Settles O12: after 15 the 4-bit pointer is 0, and n steps add n to it modulo 16. -/
theorem pointerWrapsEverySixteenSteps : Obligations.PointerWrapsEverySixteenSteps := by
  unfold Obligations.PointerWrapsEverySixteenSteps
  refine ⟨fun g hp => ?wrap, fun g => ?sixteen, fun n => ?seed⟩
  case wrap =>
    have hnew : g.p + 1#4 = 0#4 := by rw [hp]; decide
    have hwritten := engineStep_word_written g
    rw [hnew, hp, nextWord_eq] at hwritten
    exact ⟨hnew, hwritten⟩
  case sixteen => rw [engineAfter_p]; exact BitVec.add_zero g.p
  case seed => rw [engineAfter_p, GeneratorState.seed_p, BitVec.zero_add, BitVec.toNat_ofNat]

/-! ## SEED and NEXT (40_engine R69, R74) -/

/-- A word with the OP of SEED or NEXT and a LEN that is not 0 is ILLEGAL (30_encoding R59). -/
theorem decode_reservedLen {op : BitVec 8} {len : Len} (hop : op = 0x01#8 ∨ op = 0x02#8) (hlen : len ≠ 0#56) :
    decode (commandWord op len) = .illegal (.reservedLen op len) := by
  rcases hop with rfl | rfl <;> simp [decode, hlen]

/-- Such a word, presented in IDLE, raises ILLEGAL_COMMAND (60_exceptions R107). -/
theorem step_reservedLen {s : State} {op : BitVec 8} {len : Len} {a : Option Answer}
    (hop : op = 0x01#8 ∨ op = 0x02#8) (hlen : len ≠ 0#56) (hf : s.fsm = .idle)
    (hi : s.hostInput = ⟨false, some (commandWord op len), a⟩) :
    step s = .next ((s.consumeInput.logAccepted (commandWord op len)).raise .illegalCommand 0#56) := by
  rw [step_accept (by rw [hi]) hf (by rw [hi]), accept_illegal _ (decode_reservedLen hop hlen)]

/-- The first word of the stream (95_test_vectors V-E1). -/
theorem engineStep_seed_output : (engineStep GeneratorState.seed).2 = 0xC0562E31B467F91F#64 := by decide

/-- Settles O16: `exec` of SEED is the seed, CUR at CAP and the response; reset leaves the seed and CUR at CAP too. -/
theorem seedCommand : Obligations.SeedCommand := by
  unfold Obligations.SeedCommand
  refine ⟨fun s => ?effect, fun cfg t h => ?afterReset, fun s t h => ?nextAfter, fun len => ?word,
    fun s len a hf hi hlen => step_reservedLen (.inl rfl) hlen hf hi⟩
  case effect => exact ⟨_, exec_seed s, by simpa [SameBytes] using GeneratorState.word_seed⟩
  case afterReset => cases h; rfl
  case nextAfter =>
    cases h
    exact ⟨_, exec_next _, by simp [engineStep_seed_output]⟩
  case word => simp [decode_eq_seed_iff]

/-- Settles O17: `exec` of NEXT is the engine step of O8 and the response with its output. -/
theorem nextCommand : Obligations.NextCommand := by
  unfold Obligations.NextCommand
  refine ⟨?effect, fun len => ?word, fun s len a hf hi hlen => step_reservedLen (.inr rfl) hlen hf hi⟩
  case effect =>
    rintro s s0 s1 s1a new rfl rfl hshifted hnew
    have hwritten := engineStep_word_written_of_shifted hshifted hnew
    have houtput : (engineStep s.gen).2 = new * 1181783497276652981#64 := by
      rw [engineStep_output_eq_written, hwritten, mult]
    have hkept : ∀ i, i ≠ s.gen.p + 1#4 → (engineStep s.gen).1.word i = s.gen.word i :=
      fun i => engineStep_word_kept
    exact ⟨_, exec_next s, by simpa [SameBytes, hwritten, houtput] using hkept⟩
  case word => simp [decode_eq_next_iff]

end Sys2Proof.Machine
end

section
/-! PROOFS. 41_stream_buffer, first part: the rows of a READ one by one, the waiting block, WRITE, and what one READ leaves to
the next. -/

namespace Sys2Proof.Machine

/-! ## WRITE (41_stream_buffer R98, R99) -/

theorem State.withFsm_self {s : State} {f : Fsm} (h : s.fsm = f) : s.withFsm f = s := by
  subst h; rfl

/-- In IDLE an error adds its response to the record and does nothing else (60_exceptions R106). -/
theorem State.raise_idle {s : State} (hf : s.fsm = .idle) (e : BlockError) (info : Len) :
    s.raise e info = s.withLog (s.log ++ [Event.responded ⟨e.status, 0#64, info⟩]) :=
  State.withFsm_self hf

theorem decode_write {c : Word} (ho : c.toNat / 2 ^ 56 = 4) : decode c = .instr .write :=
  (decode_eq_write_iff c).mpr ((opField_eq_iff c _).mpr ho)

/-- Another record behind the state takes the place of the one with the acceptance. -/
@[simp] theorem State.logAccepted_withLog (s : State) (c : Word) (l : List Event) :
    (s.logAccepted c).withLog l = s.withLog l := rfl

/-- The step in which IDLE accepts a WRITE: the host's move is taken, and the record gains the WRITE's two events. -/
theorem step_write {s : State} {c : Word} {a : Option Answer} (hf : s.fsm = .idle)
    (hi : s.hostInput = ⟨false, some c, a⟩) (ho : c.toNat / 2 ^ 56 = 4) :
    step s = .next (s.consumeInput.withLog
      (s.log ++ [Event.accepted c, .responded ⟨.unsupportedOperation, 0#64, 0#56⟩])) := by
  have hrow := step_of_stepRow (.write (by rw [hi]) hf (by rw [hi]) (decode_write ho))
  rw [hrow, State.raise_idle (by simpa using hf)]
  simp [BlockError.status]

/-- A run adds its events to the record, and is the same run, with the same events, over another record. -/
theorem run_withLog {n : Nat} {s t : State} (h : run n s = .next t) :
    ∃ new, t.log = s.log ++ new ∧ ∀ l, run n (s.withLog l) = .next (t.withLog (l ++ new)) := by
  induction n generalizing s with
  | zero => cases h; exact ⟨[], by simp, fun l => by simp⟩
  | succ n ih =>
    obtain ⟨u, hsu, hut⟩ := run_succ_inv h
    obtain ⟨new, hnew, hrow⟩ := (stepRow_of_step hsu).withLog
    obtain ⟨new', hnew', hrun⟩ := ih hut
    refine ⟨new ++ new', by rw [hnew', hnew, List.append_assoc], fun l => ?_⟩
    rw [run_succ_next (step_of_stepRow (hrow l))]
    simpa using hrun (l ++ new)

/-- A run that stops does so over any record. -/
theorem run_fault_withLog {n : Nat} {s : State} {f : Fault} (l : List Event) (h : run n s = .fault f) :
    run n (s.withLog l) = .fault f := by
  induction n generalizing s l with
  | zero => simp at h
  | succ n ih =>
    cases hs : step s with
    | next t =>
      obtain ⟨new, _, hrow⟩ := (stepRow_of_step hs).withLog
      rw [run_succ_next (step_of_stepRow (hrow l))]
      exact ih _ (by rwa [run_succ_next hs] at h)
    | fault g =>
      rw [run_succ_fault hs] at h
      rw [run_succ_fault ((recordIsNeverRead s l).2 g hs), h]
    | refused r => simp [run_succ_refused hs] at h

/-- Settles O20: the WRITE's step takes the host's move and writes nothing but the record, which no later step reads. -/
theorem writeLeavesLaterRunsAlone : Obligations.WriteLeavesLaterRunsAlone := by
  unfold Obligations.WriteLeavesLaterRunsAlone
  intro s c a n hf hi ho
  rw [run_succ_next (step_write hf hi ho)]
  refine ⟨fun t ht => ?next, fun f hfault => run_fault_withLog _ hfault⟩
  case next =>
    obtain ⟨new, hnew, hrun⟩ := run_withLog ht
    exact ⟨new, hnew, hrun _⟩

/-- Settles O19: `exec` of WRITE is the error and nothing else, and every word with OP 4 is WRITE. -/
theorem writeIsRejected : Obligations.WriteIsRejected := by
  unfold Obligations.WriteIsRejected
  refine ⟨fun s => ⟨_, exec_write s, by simp [SameBytes, BlockError.status]⟩, fun s c a hf hi ho => ?presented⟩
  case presented =>
    exact ⟨decode_write ho, _, step_write hf hi ho, by simp [SameBytes, hf]⟩

/-! ## Waiting (41_stream_buffer R84, log entry 6) -/

/-- Settles O26: the two rows in which the host has nothing for the block. -/
theorem blockWaitsForTheHost : Obligations.BlockWaitsForTheHost := by
  unfold Obligations.BlockWaitsForTheHost
  rintro s hr (⟨hf, hw⟩ | ⟨hf, ha⟩)
  · exact step_idle_quiet hr hf hw
  · exact step_xfer_waits hr hf ha

/-! ## Facts of the invariant for arithmetic -/

/-- BUF holds at least one word (00_scope R10). -/
theorem State.Inv.cap_pos {s : State} (hs : s.Inv) : 0 < s.cfg.cap := by
  have hwf := hs.cfgWf
  simp only [Config.wf, decide_eq_true_eq] at hwf
  unfold Config.cap
  omega

theorem toNat_pos_of_ne_zero {x : Len} (h : x ≠ 0#56) : 0 < x.toNat :=
  Nat.pos_of_ne_zero fun h0 => h (BitVec.eq_of_toNat_eq h0)

/-! ## READ_LOOP (41_stream_buffer R83) -/

theorem State.chunkLength_le_left (s : State) : s.chunkLength ≤ s.cap - s.cur := Nat.min_le_right ..

/-- Settles O21: the three rows of READ_LOOP. -/
theorem readLoopStep_effect : Obligations.ReadLoopStep := by
  unfold Obligations.ReadLoopStep
  intro s hf hr hle
  by_cases hrem : s.rem = 0#56
  · exact ⟨_, step_readLoop_done hr hf hrem, by simp [SameBytes, hrem]⟩
  rcases Nat.lt_or_eq_of_le hle with hc | hc
  · have hle := s.chunkLength_le_left
    exact ⟨_, step_readLoop_xfer hr hf hrem hc, rfl, rfl, rfl, fun _ => rfl, rfl, rfl, rfl, fun h => absurd h hrem,
      fun _ h => absurd h (Nat.ne_of_lt hc), fun _ _ => ⟨rfl, rfl, s.one_le_chunkLength hrem hc, hle, rfl, rfl⟩⟩
  · exact ⟨_, step_readLoop_refill hr hf hrem hc, by simp [SameBytes, hrem, hc]⟩

/-! ## REFILL (41_stream_buffer R85, R86) -/

/-- Place `j` of a word's 8 bytes is the byte of the word that its byte order puts there (20_memory R38). -/
theorem bytesBO_getElem? (bo : ByteOrder) (w : Word) {j : Nat} (hj : j < 8) :
    (bytesBO bo w)[j]? = some (BitVec.ofNat 8 (w.toNat / 2 ^ (8 * byteLane bo j))) := by
  cases bo with
  | le => exact bytesLE_getElem? w hj
  | be => exact bytesBE_getElem? w hj

/-- A word's own bytes, after it was written. -/
theorem Memory.byteAt_putWord (m : Memory) (off : Nat) (bo : ByteOrder) (w : Word) {j : Nat} (hj : j < 8) :
    Memory.byteAt (Memory.putBytes m off (bytesBO bo w)) (off + j) = (bytesBO bo w)[j]? := by
  rw [Memory.byteAt_putBytes, if_pos (by rw [bytesBO_length]; omega), Nat.add_sub_cancel_left]

/-- Every other byte, after a word was written. -/
theorem Memory.byteAt_putWord_other (m : Memory) (bo : ByteOrder) (w : Word) {off a : Nat}
    (ha : a < off ∨ off + 8 ≤ a) : Memory.byteAt (Memory.putBytes m off (bytesBO bo w)) a = Memory.byteAt m a := by
  rw [Memory.byteAt_putBytes, if_neg (by rw [bytesBO_length]; omega)]

/-- Settles O22: the row of REFILL that writes a word. -/
theorem refillWordStep : Obligations.RefillWordStep := by
  unfold Obligations.RefillWordStep
  intro s hf hr hk
  refine ⟨_, step_refill_word hr hf hk, rfl, rfl, fun j hj => ?bytes, fun a ha => ?others, by simp [hf]⟩
  case bytes => exact (Memory.byteAt_putWord _ _ _ _ hj).trans (bytesBO_getElem? _ _ hj)
  case others => exact Memory.byteAt_putWord_other _ _ _ ha

/-- Settles O23: the row of REFILL that ends the refill. -/
theorem refillEndStep : Obligations.RefillEndStep := by
  unfold Obligations.RefillEndStep
  intro s hf hr hk
  exact ⟨_, step_refill_end hr hf hk, by simp [SameBytes]⟩

/-- Settles O33: both make the engine step of `s.gen`, and the refill writes the bytes of its word. -/
theorem refillAndNextShareTheEngine : Obligations.RefillAndNextShareTheEngine := by
  unfold Obligations.RefillAndNextShareTheEngine
  intro s t u hf hr hk ht hu
  rw [step_refill_word hr hf hk] at ht
  cases ht
  cases hu
  exact ⟨rfl, (engineStep s.gen).2, rfl, fun j hj => Memory.byteAt_putWord _ _ _ _ hj⟩

/-! ## XFER (41_stream_buffer R87 to R89, R104) -/

theorem State.chunkLength_le_rem (s : State) : s.chunkLength ≤ s.rem.toNat := Nat.min_le_left ..

/-- The chunk on offer is not empty, no longer than what is still to deliver, and within the unread bytes of BUF. -/
theorem State.Inv.chunkBounds {s : State} (hs : s.Inv) (hf : s.fsm = .xfer) :
    1 ≤ s.nch ∧ s.nch ≤ s.rem.toNat ∧ s.cur + s.nch ≤ s.cap := by
  obtain ⟨h1, hn⟩ := hs.xfer hf
  have hrem := s.chunkLength_le_rem
  have hleft := s.chunkLength_le_left
  omega

/-- The chunk on offer can be read. -/
theorem State.Inv.chunk_readable {s : State} (hs : s.Inv) (hf : s.fsm = .xfer) :
    ∃ bs, memRead s.cfg s.buf s.cur s.nch = .ok bs := by
  obtain ⟨_, _, hcap⟩ := hs.chunkBounds hf
  exact memRead_known hcap fun a hlo hhi => hs.known a hlo (by omega)

/-- The bytes XFER reads are the chunk of 30_encoding R64. -/
theorem isChunk_of_memRead {s : State} {bs : List Byte} (h : memRead s.cfg s.buf s.cur s.nch = .ok bs) :
    s.IsChunk bs := (memRead_ok h).2

theorem State.chunkOnOffer_xfer {s : State} (hf : s.fsm = .xfer) :
    s.chunkOnOffer = some (memRead s.cfg s.buf s.cur s.nch) := if_pos hf

/-- Settles O45: the chunk's length is REM or what is left in BUF, whichever is less, and only REFILL writes BUF. -/
theorem chunkBounds : Obligations.ChunkBounds := by
  unfold Obligations.ChunkBounds
  intro s hs hf
  obtain ⟨h1, hrem, hcap⟩ := hs.chunkBounds hf
  obtain ⟨bs, hm⟩ := hs.chunk_readable hf
  refine ⟨h1, hs.nchLe, hcap, hrem, ⟨bs, by rw [State.chunkOnOffer_xfer hf, hm], isChunk_of_memRead hm⟩,
    fun t ht => ?unwritten⟩
  case unwritten =>
    by_contra hne
    obtain ⟨_, hrefill, _⟩ := (stepRow_of_step ht).buf_writers hne
    simp [hf] at hrefill

/-- An ACK in XFER is the row of an acknowledged chunk. -/
theorem State.Inv.step_ack {s : State} (hs : s.Inv) (hr : s.hostInput.reset = false) (hf : s.fsm = .xfer)
    (ha : s.hostInput.ans = some .ack) :
    ∃ bs, memRead s.cfg s.buf s.cur s.nch = .ok bs ∧
      step s = .next (((s.consumeInput.pushLog (.offered bs .ack)).consumeChunk).withFsm .readLoop) := by
  obtain ⟨h1, hrem, _⟩ := hs.chunkBounds hf
  obtain ⟨bs, hm⟩ := hs.chunk_readable hf
  exact ⟨bs, hm, step_of_stepRow (.xferAck hr hf ha h1 hrem hm)⟩

/-- A FAULT in XFER is the row of a faulted chunk. -/
theorem State.Inv.step_faulted {s : State} (hs : s.Inv) (hr : s.hostInput.reset = false) (hf : s.fsm = .xfer)
    (ha : s.hostInput.ans = some .fault) :
    ∃ bs, memRead s.cfg s.buf s.cur s.nch = .ok bs ∧
      step s = .next ((s.consumeInput.pushLog (.offered bs .fault)).raise .transferFault s.acc) := by
  obtain ⟨h1, hrem, _⟩ := hs.chunkBounds hf
  obtain ⟨bs, hm⟩ := hs.chunk_readable hf
  exact ⟨bs, hm, step_of_stepRow (.xferFault hr hf ha h1 hrem hm)⟩

/-- Neither REM nor ACC loses a bit when the chunk on offer is consumed (10_state R28). -/
theorem State.Inv.consumeChunk_exact {s : State} (hs : s.Inv) (hf : s.fsm = .xfer) :
    s.consumeChunk.rem.toNat = s.rem.toNat - s.nch ∧ s.consumeChunk.acc.toNat = s.acc.toNat + s.nch := by
  obtain ⟨_, hrem, _⟩ := hs.chunkBounds hf
  have hlt := hs.sumLt (by simp [hf])
  simp only [State.consumeChunk_rem, State.consumeChunk_acc, BitVec.toNat_ofNat]
  omega

/-- Settles O24: the row of an ACK, whose sums are exact under the invariant. -/
theorem acknowledgedChunkIsConsumed : Obligations.AcknowledgedChunkIsConsumed := by
  unfold Obligations.AcknowledgedChunkIsConsumed
  intro s hs hf hr ha
  obtain ⟨_, hnch, hcap⟩ := hs.chunkBounds hf
  obtain ⟨hrem, hacc⟩ := hs.consumeChunk_exact hf
  obtain ⟨bs, hm, hstep⟩ := hs.step_ack hr hf ha
  exact ⟨_, bs, hstep, isChunk_of_memRead hm, rfl, rfl, hcap, hnch, hrem, hacc, by simp [SameBytes]⟩

/-- Settles O25: the row of a FAULT. -/
theorem faultedChunkEndsTheRead : Obligations.FaultedChunkEndsTheRead := by
  unfold Obligations.FaultedChunkEndsTheRead
  intro s hs hf hr ha
  obtain ⟨bs, hm, hstep⟩ := hs.step_faulted hr hf ha
  exact ⟨_, bs, hstep, isChunk_of_memRead hm, by simp [SameBytes, BlockError.status]⟩

/-! ## Short runs -/

/-- The invariant does not speak of the host. -/
theorem State.Inv.withInputs {s : State} (h : s.Inv) (l : List HostInput) : (s.withInputs l).Inv := by
  cases h
  constructor <;> assumption

/-- The step in which IDLE accepts READ, whatever else the host does. -/
theorem step_read {s : State} {n : Len} {a : Option Answer} (hf : s.fsm = .idle)
    (hi : s.hostInput = ⟨false, some (encode (.read n)), a⟩) :
    step s = .next (((s.consumeInput.logAccepted (encode (.read n))).loadRead n).withFsm .readLoop) :=
  step_of_stepRow (.read (by rw [hi]) hf (by rw [hi]) (decode_encode _))

/-- Settles O29: READ_LOOP tests REM before CUR. -/
theorem readZero : Obligations.ReadZero := by
  unfold Obligations.ReadZero
  intro s a i rest hf hi
  have haccept := step_read (s := s.withInputs (⟨false, some (encode (.read 0#56)), a⟩ :: i :: rest)) hf rfl
  have hdone := step_readLoop_done
    (s := (((s.withInputs (i :: rest)).logAccepted (encode (.read 0#56))).loadRead 0#56).withFsm .readLoop) hi rfl rfl
  have hword : encode (.read 0#56) = 0x0300000000000000#64 := by decide
  rw [State.withInputs_consumeInput] at haccept
  rw [← hword]
  exact ⟨_, (run_succ_next haccept).trans ((run_succ_next hdone).trans (run_zero _)), by simp [SameBytes]⟩

/-- Settles O30: the ACK takes the last byte of the READ and of BUF, and READ_LOOP tests REM before CUR. -/
theorem exactReadLeavesBufferExhausted : Obligations.ExactReadLeavesBufferExhausted := by
  unfold Obligations.ExactReadLeavesBufferExhausted
  intro s w w' a rest hs hf hexact
  have hs' := hs.withInputs (⟨false, w, some .ack⟩ :: ⟨false, w', a⟩ :: rest)
  obtain ⟨bs, _, hack⟩ := hs'.step_ack rfl hf rfl
  have hnch : s.nch = s.rem.toNat := by
    rw [(hs.xfer hf).2, State.chunkLength, ← hexact, Nat.min_self]
  have hcur : s.cur + s.rem.toNat = s.cap := by have := hs.curLe; omega
  have hdone := step_readLoop_done
    (s := ((((s.withInputs (⟨false, w', a⟩ :: rest)).pushLog (.offered bs .ack)).consumeChunk).withFsm .readLoop))
    rfl rfl (by simp [hnch])
  refine ⟨_, bs, (run_succ_next hack).trans ((run_succ_next hdone).trans (run_zero _)), ?_⟩
  simp [SameBytes, hnch, hcur, BitVec.ofNat_add]

/-- Two runs of bytes read from one place of one buffer agree as far as both go. -/
theorem memRead_take_eq {cfg : Config} {m : Memory} {off n n' : Nat} {bs bs' : List Byte}
    (h : memRead cfg m off n = .ok bs) (h' : memRead cfg m off n' = .ok bs') :
    bs.take (min n n') = bs'.take (min n n') := by
  obtain ⟨_, _, hbytes⟩ := memRead_ok h
  obtain ⟨_, _, hbytes'⟩ := memRead_ok h'
  apply List.ext_getElem?
  intro j
  by_cases hj : j < min n n'
  · rw [List.getElem?_take_of_lt hj, List.getElem?_take_of_lt hj, hbytes j (by omega), hbytes' j (by omega)]
  · simp only [List.getElem?_take, if_neg hj]

/-- READ of some bytes, presented in IDLE with an unread byte in BUF, has its first chunk on offer two steps later. -/
theorem run_read_offers {s : State} {n : Len} {a : Option Answer} (hs : s.Inv) (hf : s.fsm = .idle)
    (hi : s.hostInput = ⟨false, some (encode (.read n)), a⟩) (hi' : s.consumeInput.hostInput.reset = false)
    (hn : n ≠ 0#56) (hc : s.cur < s.cap) :
    ∃ u, run 2 s = .next u ∧ u.Inv ∧ u.fsm = .xfer ∧ u.cur = s.cur ∧ u.nch = min n.toNat (s.cap - s.cur) ∧
      u.buf = s.buf ∧ u.cfg = s.cfg := by
  have haccept := step_read hf hi
  have hxfer := step_readLoop_xfer
    (s := ((s.consumeInput.logAccepted (encode (.read n))).loadRead n).withFsm .readLoop) hi' (by simp)
    (by simpa using hn) (by simpa using hc)
  exact ⟨_, (run_succ_next haccept).trans ((run_succ_next hxfer).trans (run_zero _)),
    (stepRow_of_step hxfer).inv ((stepRow_of_step haccept).inv hs), by simp [State.chunkLength]⟩

/-- Settles O32: neither the FAULT nor the acceptance of READ moves CUR or writes BUF, so the next chunk is read from the same
place. -/
theorem retryOffersTheSameBytes : Obligations.RetryOffersTheSameBytes := by
  unfold Obligations.RetryOffersTheSameBytes
  intro s w n i rest hs hf hn hi
  have hs' := hs.withInputs (⟨false, w, some .fault⟩ :: ⟨false, some (encode (.read n)), none⟩ :: i :: rest)
  obtain ⟨h1, _, hcap⟩ := hs.chunkBounds hf
  obtain ⟨bs, hm, hfault⟩ := hs'.step_faulted rfl hf rfl
  have hinv := (stepRow_of_step hfault).inv hs'
  rw [State.withInputs_consumeInput] at hfault hinv
  obtain ⟨u, hrun, huinv, huf, hcur, hnch, hbuf, hcfg⟩ :=
    run_read_offers (n := n) (a := none) hinv (by simp) (by simp [State.hostInput])
      (by simpa [State.hostInput] using hi) hn (by simp; omega)
  obtain ⟨bs', hm'⟩ := huinv.chunk_readable huf
  refine ⟨u, bs, bs', (run_succ_next hfault).trans hrun, huf, by simpa using hcur, by simpa using hnch,
    by rw [State.chunkOnOffer_xfer hf]; exact congrArg some hm,
    by rw [State.chunkOnOffer_xfer huf, hm'], memRead_take_eq hm ?_⟩
  rw [hcfg, hbuf, hcur] at hm'
  simpa using hm'

end Sys2Proof.Machine
end

section
/-! PROOFS. 41_stream_buffer, second part: the block as a queue of the engine's outputs, and the stream law (R95,
70_reset_and_hazards R132). -/

namespace Sys2Proof.Machine

/-! ## A stretch of the record as actions on the queue -/

/-- While the events `new` were recorded, the actions `acts` took the engine from `g` to `g'` and the unread bytes from `q` to `q'`;
they served what `new` delivers, gave NEXT the results `new` holds, and there is one of them for each command or reset in `new` that
asks for one. `StepRow.movesQueue` ties it to the rows. -/
structure QueueMoves (bo : ByteOrder) (g : GeneratorState) (q : List Byte) (acts : List StreamAction) (new : List Event)
    (g' : GeneratorState) (q' : List Byte) : Prop where
  effect : ∀ served results, StreamQueue.acts bo ⟨g, q, served, results⟩ acts =
    ⟨g', q', served ++ deliveredIn new, results ++ nextResultsIn new⟩
  /-- The stretch ends between commands or in a READ. -/
  closed : ∀ l, nextResultsIn (new ++ l) = nextResultsIn new ++ nextResultsIn l
  nexts : acts.count .next = acceptsOf .next new
  restarts : acts.count .restart = acceptsOf .seed new + resetsIn new

section
variable {bo : ByteOrder} {g g' g'' : GeneratorState} {q q' q'' : List Byte} {acts acts' : List StreamAction}
  {new new' : List Event}

/-- Events that deliver nothing and are about neither NEXT, SEED nor reset ask for no action. -/
theorem QueueMoves.none (hd : deliveredIn new = []) (hc : ∀ l, nextResultsIn (new ++ l) = nextResultsIn l)
    (hn : acceptsOf .next new = 0) (hs : acceptsOf .seed new = 0) (hr : resetsIn new = 0) :
    QueueMoves bo g q [] new g q := by
  have hres : nextResultsIn new = [] := by simpa using hc []
  exact ⟨by simp [hd, hres], by simp [hc, hres], by simp [hn], by simp [hs, hr]⟩

theorem QueueMoves.nil (bo : ByteOrder) (g : GeneratorState) (q : List Byte) : QueueMoves bo g q [] [] g q :=
  .none rfl (fun _ => rfl) rfl rfl rfl

theorem QueueMoves.trans (h : QueueMoves bo g q acts new g' q') (h' : QueueMoves bo g' q' acts' new' g'' q'') :
    QueueMoves bo g q (acts ++ acts') (new ++ new') g'' q'' where
  effect served results := by simp [h.effect, h'.effect, h.closed]
  closed l := by simp [h.closed, h'.closed]
  nexts := by simp [h.nexts, h'.nexts]
  restarts := by
    simp only [List.count_append, h.restarts, h'.restarts, acceptsOf_append, resetsIn_append]
    omega

end

/-! ## The unread bytes, row by row -/

/-- In every state that meets the invariant the unread bytes are known. -/
theorem State.Inv.exists_unread {s : State} (hs : s.Inv) : ∃ q, s.IsUnread q := by
  have main : ∀ off n, off + n ≤ s.cap → Memory.Known s.buf off (off + n) → s.unreadSpan = (off, n) →
      ∃ q, s.IsUnread q := by
    intro off n hcap hk hspan
    obtain ⟨q, hq⟩ := memRead_known (cfg := s.cfg) hcap hk
    obtain ⟨_, hbytes⟩ := memRead_ok hq
    exact ⟨q, by simpa only [State.IsUnread, hspan] using hbytes⟩
  by_cases hf : s.fsm = .refill
  · have hk := hs.kLe
    obtain ⟨_, _, hwritten⟩ := hs.refill hf
    exact main 0 (8 * s.k) (by rw [State.cap, Config.cap]; omega) (by simpa using hwritten) (State.unreadSpan_refill hf)
  · have hc : s.cur + (s.cap - s.cur) = s.cap := by have := hs.curLe; omega
    exact main s.cur (s.cap - s.cur) hc.le (by rw [hc]; exact hs.known) (State.unreadSpan_other hf)

/-- With CUR = CAP outside a refill no byte is unread. -/
theorem State.IsUnread.eq_nil {s : State} {q : List Byte} (h : s.IsUnread q) (hf : s.fsm ≠ .refill)
    (hc : s.cur = s.cap) : q = [] := by
  obtain ⟨hlen, _⟩ := h
  simpa [State.unreadSpan_other hf, hc] using hlen

/-- The word a refill writes joins the end of the unread bytes. -/
theorem State.IsUnread.refillWord {s t : State} {q bs : List Byte} (h : s.IsUnread q) (hf : s.fsm = .refill)
    (htf : t.fsm = .refill) (hk : t.k = s.k + 1) (hbs : bs.length = 8)
    (hbuf : t.buf = Memory.putBytes s.buf (8 * s.k) bs) : t.IsUnread (q ++ bs) := by
  obtain ⟨hlen, hbytes⟩ := h
  simp only [State.unreadSpan_refill hf, Nat.zero_add] at hlen hbytes
  simp only [State.IsUnread, State.unreadSpan_refill htf, hk, hbuf, Nat.zero_add]
  refine ⟨by simp [hlen, hbs, Nat.mul_add], fun j hj => ?_⟩
  rw [Memory.byteAt_putBytes]
  by_cases hold : j < 8 * s.k
  · rw [if_neg (by omega), List.getElem?_append_left (by omega), hbytes j hold]
  · rw [if_pos (by omega), List.getElem?_append_right (by omega), hlen]

/-- An acknowledged chunk is taken from the front of the unread bytes. -/
theorem State.IsUnread.serve {s t : State} {q bs : List Byte} (h : s.IsUnread q) (hf : s.fsm ≠ .refill)
    (htf : t.fsm ≠ .refill) (hm : memRead s.cfg s.buf s.cur s.nch = .ok bs) (hcfg : t.cfg = s.cfg)
    (hcur : t.cur = s.cur + s.nch) (hbuf : t.buf = s.buf) : q.take s.nch = bs ∧ t.IsUnread (q.drop s.nch) := by
  obtain ⟨hlen, hbytes⟩ := h
  obtain ⟨hcap, hbslen, hbs⟩ := memRead_ok hm
  have hcapEq : t.cap = s.cap := congrArg Config.cap hcfg
  rw [← State.cap] at hcap
  simp only [State.unreadSpan_other hf] at hlen hbytes
  refine ⟨?_, ?_⟩
  · apply List.ext_getElem?
    intro j
    by_cases hj : j < s.nch
    · rw [List.getElem?_take_of_lt hj, hbytes j (by omega), hbs j hj]
    · simp [hj, hbslen]
  · simp only [State.IsUnread, State.unreadSpan_other htf, hcapEq, hcur, hbuf, List.length_drop, hlen, List.getElem?_drop]
    exact ⟨by omega, fun j hj => by rw [hbytes _ (by omega), Nat.add_assoc]⟩

/-- From `s` with the unread bytes `q` to `t` the block has made actions on the queue. -/
def State.MovesQueue (s : State) (q : List Byte) (t : State) : Prop :=
  ∃ acts new q', t.log = s.log ++ new ∧ QueueMoves s.cfg.byteOrder s.gen q acts new t.gen q' ∧ t.IsUnread q'

/-- A step that leaves the engine and the unread bytes as they are, with events that ask for no action. -/
theorem State.IsUnread.movesQueue {s t : State} {q : List Byte} {new : List Event} (hq : s.IsUnread q)
    (hlog : t.log = s.log ++ new) (hgen : t.gen = s.gen) (hbuf : t.buf = s.buf) (hspan : t.unreadSpan = s.unreadSpan)
    (hmoves : QueueMoves s.cfg.byteOrder s.gen q [] new s.gen q) : s.MovesQueue q t :=
  ⟨[], new, q, hlog, by rw [hgen]; exact hmoves, hq.congr hspan fun a => by rw [hbuf]⟩

/-- Every row is actions on the queue: most of them none, REFILL a word's bytes in, NEXT an output out, SEED and reset a
fresh start, an ACK a chunk out. -/
theorem StepRow.movesQueue {s t : State} (h : StepRow s t) {q : List Byte} (hq : s.IsUnread q) : s.MovesQueue q t := by
  cases h with
  | reset hr =>
    exact ⟨[.restart], _, [], rfl, ⟨by simp [StreamQueue.act], by simp, by simp, by simp⟩,
      State.isUnread_nil (by simp) (by simp)⟩
  | idleQuiet hr hf hw =>
    exact hq.movesQueue (new := []) (by simp) rfl rfl rfl (.nil _ _ _)
  | seed hr hf hw hd =>
    refine ⟨[.restart], _, [], List.append_assoc _ _ _, ⟨?_, ?_, ?_, ?_⟩, State.isUnread_nil (by simp [hf]) (by simp)⟩
    all_goals simp [StreamQueue.act, nextResultsIn_accepted, hd]
  | next hr hf hw hd =>
    refine ⟨[.next], _, q, List.append_assoc _ _ _, ⟨?_, ?_, ?_, ?_⟩, hq.congr rfl fun _ => rfl⟩
    all_goals simp [StreamQueue.act, nextResultsIn_next, hd]
  | @read c n hr hf hw hd =>
    refine hq.movesQueue (new := [.accepted c]) (by simp) (by simp) (by simp) (by simp [State.unreadSpan, hf])
      (.none ?_ ?_ ?_ ?_ ?_)
    all_goals simp [nextResultsIn_accepted, hd]
  | write hr hf hw hd | illegal hr hf hw hd =>
    refine hq.movesQueue (List.append_assoc _ _ _) rfl rfl (by simp [State.unreadSpan, hf]) (.none ?_ ?_ ?_ ?_ ?_)
    all_goals simp [nextResultsIn_accepted, hd]
  | loopDone hr hf hrem =>
    refine hq.movesQueue rfl rfl rfl (by simp [State.unreadSpan, hf]) (.none ?_ ?_ ?_ ?_ ?_)
    all_goals simp
  | loopRefill hr hf hrem hc =>
    rw [hq.eq_nil (by simp [hf]) hc]
    exact ⟨[], [], [], by simp, .nil _ _ _, by simp [State.IsUnread, State.unreadSpan]⟩
  | loopXfer hr hf hrem hc =>
    exact hq.movesQueue (new := []) (by simp) rfl rfl (by simp [State.unreadSpan, hf]) (.nil _ _ _)
  | refillWord hr hf hk =>
    refine ⟨[.produce], [], _, by simp, ⟨?_, ?_, ?_, ?_⟩, hq.refillWord hf hf rfl (bytesBO_length _ _) rfl⟩
    all_goals simp [StreamQueue.act]
  | refillEnd hr hf hk =>
    exact hq.movesQueue (new := []) (by simp) rfl rfl (by simp [State.unreadSpan, hf, hk, State.cap, Config.cap])
      (.nil _ _ _)
  | xferWaits hr hf ha =>
    exact hq.movesQueue (new := []) (by simp) rfl rfl rfl (.nil _ _ _)
  | @xferAck bs hr hf ha h1 hn hm =>
    obtain ⟨hserved, hrest⟩ := hq.serve
      (t := ((s.consumeInput.pushLog (.offered bs .ack)).consumeChunk).withFsm .readLoop)
      (by simp [hf]) (by simp) hm rfl rfl rfl
    refine ⟨[.serve s.nch], _, _, rfl, ⟨?_, ?_, ?_, ?_⟩, hrest⟩
    all_goals simp [StreamQueue.act, hserved]
  | xferFault hr hf ha h1 hn hm =>
    refine hq.movesQueue (List.append_assoc _ _ _) rfl rfl (by simp [State.unreadSpan, hf]) (.none ?_ ?_ ?_ ?_ ?_)
    all_goals simp

/-- A run is the actions of its steps, one after the other. -/
theorem run_movesQueue {k : Nat} {s t : State} {q : List Byte} (hq : s.IsUnread q)
    (h : run k s = .next t) : s.MovesQueue q t := by
  induction k generalizing s q with
  | zero => cases h; exact ⟨[], [], q, by simp, .nil _ _ _, hq⟩
  | succ k ih =>
    obtain ⟨u, hsu, hut⟩ := run_succ_inv h
    have row := stepRow_of_step hsu
    obtain ⟨acts, new, q', hlog, hmoves, hq'⟩ := row.movesQueue hq
    obtain ⟨acts', new', q'', hlog', hmoves', hq''⟩ := ih hq' hut
    rw [row.cfg_eq] at hmoves'
    exact ⟨acts ++ acts', new ++ new', q'', by rw [hlog', hlog, List.append_assoc], hmoves.trans hmoves', hq''⟩

/-- Settles O53: the actions of the run's steps, on the queue of the unread bytes. -/
theorem streamIsAQueue : Obligations.StreamIsAQueue := by
  unfold Obligations.StreamIsAQueue
  intro s hs
  obtain ⟨q, hq⟩ := hs.exists_unread
  refine ⟨q, hq, fun k t hrun => ?_⟩
  obtain ⟨acts, new, q', hlog, hmoves, hq'⟩ := run_movesQueue hq hrun
  refine ⟨acts, new, ⟨t.gen, q', deliveredIn new, nextResultsIn new⟩, hlog, ?_, rfl, hq', rfl, rfl, hmoves.nexts,
    hmoves.restarts⟩
  rw [hmoves.effect, List.nil_append, List.nil_append]

/-! ## The stream law (R95) -/

/-- With neither NEXT nor a restart, what was served and what is queued are the outputs so far, behind what was there before. -/
theorem StreamQueue.acts_stream (bo : ByteOrder) {acts : List StreamAction} (m : StreamQueue)
    (hn : StreamAction.next ∉ acts) (hr : StreamAction.restart ∉ acts) :
    ∃ k, (m.acts bo acts).gen = engineAfter k m.gen ∧
      (m.acts bo acts).served ++ (m.acts bo acts).queue = m.served ++ m.queue ++ streamBytes bo k m.gen := by
  induction acts generalizing m with
  | nil => exact ⟨0, rfl, by simp [streamBytes]⟩
  | cons a acts ih =>
    obtain ⟨k, hg, hbytes⟩ := ih (m.act bo a) (fun h => hn (List.mem_cons_of_mem _ h))
      (fun h => hr (List.mem_cons_of_mem _ h))
    rw [StreamQueue.acts_cons]
    cases a with
    | produce => exact ⟨k + 1, hg, by simpa [StreamQueue.act, streamBytes] using hbytes⟩
    | next => exact absurd (List.mem_cons_self ..) hn
    | restart => exact absurd (List.mem_cons_self ..) hr
    | serve n => exact ⟨k, hg, by simpa [StreamQueue.act] using hbytes⟩

/-- The host asserts no reset and presents neither NEXT nor SEED. -/
def HostInput.LeavesStream (i : HostInput) : Prop :=
  i.reset = false ∧ ∀ c, i.word = some c → decode c ≠ .instr .next ∧ decode c ≠ .instr .seed

theorem quiet_leavesStream : HostInput.quiet.LeavesStream := ⟨rfl, nofun⟩

/-- What holds of every move to come, and of the quiet host, holds of the next move. -/
theorem State.hostInput_of_forall {P : HostInput → Prop} {s : State} (hq : P HostInput.quiet)
    (h : ∀ i ∈ s.inputs, P i) : P s.hostInput := by
  unfold State.hostInput
  cases hi : s.inputs with
  | nil => exact hq
  | cons i rest => exact h i (by simp [hi])

/-- Under such a move no NEXT and no SEED is accepted, and no reset taken. -/
theorem StepRow.counts_of_leavesStream {s t : State} (h : StepRow s t) (hi : s.hostInput.LeavesStream) :
    acceptsOf .next t.log = acceptsOf .next s.log ∧ acceptsOf .seed t.log = acceptsOf .seed s.log ∧
      resetsIn t.log = resetsIn s.log := by
  obtain ⟨hreset, hword⟩ := hi
  cases h with
  | reset hr => simp [hreset] at hr
  | seed _ _ hw hd => exact absurd hd (hword _ hw).2
  | next _ _ hw hd => exact absurd hd (hword _ hw).1
  | read _ _ _ hd | write _ _ _ hd | illegal _ _ _ hd => simp [hd]
  | _ => simp

theorem run_counts_of_leavesStream {k : Nat} {s t : State} (h : run k s = .next t)
    (hi : ∀ i ∈ s.inputs, i.LeavesStream) :
    acceptsOf .next t.log = acceptsOf .next s.log ∧ acceptsOf .seed t.log = acceptsOf .seed s.log ∧
      resetsIn t.log = resetsIn s.log := by
  induction k generalizing s with
  | zero => cases h; exact ⟨rfl, rfl, rfl⟩
  | succ k ih =>
    obtain ⟨u, hsu, hut⟩ := run_succ_inv h
    have row := stepRow_of_step hsu
    have hfirst := row.counts_of_leavesStream (State.hostInput_of_forall quiet_leavesStream hi)
    simpa only [hfirst] using ih hut fun i hm => hi i (List.mem_of_mem_tail (row.inputs_eq ▸ hm))

/-- Settles O52: the queue is empty at first, and the run's actions only produce and serve. -/
theorem streamLaw : Obligations.StreamLaw := by
  unfold Obligations.StreamLaw
  intro s moves k t hs hf hc hmoves hrun
  have hq : (s.withInputs moves).IsUnread [] := State.isUnread_nil (by simp [hf]) hc
  obtain ⟨acts, new, q', hlog, hacts, _⟩ := run_movesQueue hq hrun
  obtain ⟨hnext, hseed, hreset⟩ := run_counts_of_leavesStream hrun hmoves
  simp only [hlog, acceptsOf_append, resetsIn_append, Nat.add_eq_left] at hnext hseed hreset
  have hn : StreamAction.next ∉ acts := List.count_eq_zero.mp (by rw [hacts.nexts, hnext])
  have hr : StreamAction.restart ∉ acts := List.count_eq_zero.mp (by rw [hacts.restarts, hseed, hreset])
  obtain ⟨m, hg, hbytes⟩ := StreamQueue.acts_stream s.cfg.byteOrder ⟨s.gen, [], [], []⟩ hn hr
  have heffect := hacts.effect [] []
  simp only [State.withInputs_cfg, State.withInputs_gen] at heffect
  rw [heffect] at hg hbytes
  exact ⟨new, m, hlog, hg, q', by simpa using hbytes⟩

end Sys2Proof.Machine
end

section
/-! PROOFS. 41_stream_buffer, third part: the FSM of R82 to R89 refines the loop of R81 (R95). -/

namespace Sys2Proof.Machine

/-! ## The loop's branches -/

/-- The rest of a refill, `n` words from word `k` on, and the loop after it. -/
def finishRefill (fuel : Nat) (answers : List Answer) (n k : Nat) (v : State) : ReadOutcome :=
  match refillWords n k v with
  | .error f => .stopped f
  | .ok s' => readWhile fuel answers (s'.withCur 0)

section
variable {v : State} {fuel : Nat} {answers : List Answer}

theorem readWhile_done (h : v.rem = 0#56) :
    readWhile (fuel + 1) answers v = .responded ((v.respond .ok 0#64 v.acc).withFsm .idle) := by
  simp [readWhile, h]

theorem readWhile_refills (h : v.rem ≠ 0#56) (hc : v.cur = v.cap) :
    readWhile (fuel + 1) answers v = finishRefill fuel answers v.cfg.capWords 0 v := by
  rw [readWhile, if_neg h, if_pos hc]
  rfl

theorem readWhile_ack {bs : List Byte} (h : v.rem ≠ 0#56) (hc : v.cur ≠ v.cap)
    (hm : memRead v.cfg v.buf v.cur v.chunkLength = .ok bs) :
    readWhile (fuel + 1) (.ack :: answers) v =
      readWhile fuel answers ((v.pushLog (.offered bs .ack)).consumeBytes v.chunkLength) := by
  simp [readWhile, h, hc, hm]

theorem readWhile_fault {bs : List Byte} (h : v.rem ≠ 0#56) (hc : v.cur ≠ v.cap)
    (hm : memRead v.cfg v.buf v.cur v.chunkLength = .ok bs) :
    readWhile (fuel + 1) (.fault :: answers) v =
      .responded ((v.pushLog (.offered bs .fault)).raise .transferFault v.acc) := by
  simp [readWhile, h, hc, hm]

/-- After the last word of a refill the loop goes on with CUR = 0. -/
theorem finishRefill_zero (k : Nat) : finishRefill fuel answers 0 k v = readWhile fuel answers (v.withCur 0) := rfl

/-- One word of a refill, and then the others. -/
theorem finishRefill_succ {n k : Nat} (hk : k < v.cfg.capWords) :
    finishRefill fuel answers (n + 1) k v =
      finishRefill fuel answers n (k + 1) ((v.withGen (engineStep v.gen).1).withBuf
        (Memory.putBytes v.buf (8 * k) (bytesBO v.cfg.byteOrder (engineStep v.gen).2))) := by
  have hc : 8 * k + 8 ≤ v.cfg.cap := by unfold Config.cap; omega
  simp [finishRefill, refillWords, memWrite, hc]

end

/-! ## What is left of the loop in each FSM state -/

/-- `s` with the values of `u` in what the loop of R81 computes with, and its own FSM, counters K and NCH and host. -/
def State.adopt (s u : State) : State :=
  { s with gen := u.gen, buf := u.buf, cur := u.cur, rem := u.rem, acc := u.acc, log := u.log }

section
variable (s u : State)

@[simp] theorem State.adopt_cfg : (s.adopt u).cfg = s.cfg := rfl
@[simp] theorem State.adopt_gen : (s.adopt u).gen = u.gen := rfl
@[simp] theorem State.adopt_buf : (s.adopt u).buf = u.buf := rfl
@[simp] theorem State.adopt_cur : (s.adopt u).cur = u.cur := rfl
@[simp] theorem State.adopt_fsm : (s.adopt u).fsm = s.fsm := rfl
@[simp] theorem State.adopt_rem : (s.adopt u).rem = u.rem := rfl
@[simp] theorem State.adopt_acc : (s.adopt u).acc = u.acc := rfl
@[simp] theorem State.adopt_log : (s.adopt u).log = u.log := rfl

/-- Adopting the state READ is accepted into is loading READ's operand. -/
theorem State.adopt_accepted (n : Len) (f : Fsm) : s.adopt ((s.loadRead n).withFsm f) = s.loadRead n := rfl

theorem State.adopt_chunkLength {s u : State} (h : u.cfg = s.cfg) : (s.adopt u).chunkLength = u.chunkLength := by
  simp [State.chunkLength, State.cap, h]

end

/-- In IDLE, two states of one block agree as O51 asks when each adopts the other's values. -/
theorem State.sameRead_adopt {s u : State} (hf : s.fsm = .idle) (hu : u.fsm = .idle) (h : u.cfg = s.cfg) :
    u.SameRead (s.adopt u) := by
  simp [State.SameRead, hf, hu, h]

/-- What the loop of R81, begun in `s`, has still to do when the FSM is in `u`: nothing in IDLE, the rest of the refill and then the
loop in REFILL, and the loop elsewhere. -/
def State.resume (s : State) (fuel : Nat) (answers : List Answer) (u : State) : ReadOutcome :=
  match u.fsm with
  | .idle => .responded (s.adopt u)
  | .refill => finishRefill fuel answers (s.cfg.capWords - u.k) u.k (s.adopt u)
  | .readLoop | .xfer => readWhile fuel answers (s.adopt u)

section
variable {s u : State} {fuel : Nat} {answers : List Answer}

theorem resume_idle (h : u.fsm = .idle) : s.resume fuel answers u = .responded (s.adopt u) := by
  simp [State.resume, h]

theorem resume_refill (h : u.fsm = .refill) :
    s.resume fuel answers u = finishRefill fuel answers (s.cfg.capWords - u.k) u.k (s.adopt u) := by
  simp [State.resume, h]

theorem resume_readLoop (h : u.fsm = .readLoop) : s.resume fuel answers u = readWhile fuel answers (s.adopt u) := by
  simp [State.resume, h]

theorem resume_xfer (h : u.fsm = .xfer) : s.resume fuel answers u = readWhile fuel answers (s.adopt u) := by
  simp [State.resume, h]

end

/-! ## The simulation -/

/-- Iterations that are enough for what is left of the loop: two for each byte still to deliver, one to respond, and one to begin
a refill. -/
def State.loopsLeft (u : State) : Nat :=
  2 * u.rem.toNat + 1 + (if u.fsm = .readLoop ∧ u.cur = u.cap then 1 else 0)

theorem State.loopsLeft_le (u : State) : u.loopsLeft ≤ 2 * u.rem.toNat + 2 := by
  unfold State.loopsLeft
  split <;> omega

theorem State.loopsLeft_xfer {u : State} (h : u.fsm = .xfer) : u.loopsLeft = 2 * u.rem.toNat + 1 := by
  simp [State.loopsLeft, h]

/-- The state of R81's loop where it reads a chunk is the FSM's in XFER, and its chunk is the one on offer. -/
theorem adopt_chunk {s u : State} {bs : List Byte} (hu : u.Inv) (hf : u.fsm = .xfer) (hcfg : u.cfg = s.cfg)
    (hm : memRead u.cfg u.buf u.cur u.nch = .ok bs) :
    (s.adopt u).rem ≠ 0#56 ∧ (s.adopt u).cur ≠ (s.adopt u).cap ∧ (s.adopt u).chunkLength = u.nch ∧
      memRead (s.adopt u).cfg (s.adopt u).buf (s.adopt u).cur (s.adopt u).chunkLength = .ok bs := by
  obtain ⟨h1, hrem, hcap⟩ := hu.chunkBounds hf
  have hlen : (s.adopt u).chunkLength = u.nch := by rw [State.adopt_chunkLength hcfg, (hu.xfer hf).2]
  refine ⟨?_, ?_, hlen, ?_⟩
  · rintro (h : u.rem = 0#56)
    rw [h] at hrem
    exact absurd (h1.trans hrem) (by decide)
  · simp only [State.cap, State.adopt_cfg, State.adopt_cur, ← hcfg] at hcap ⊢; omega
  · simpa [hlen, ← hcfg] using hm

/-- A row made by a block that the host neither resets nor gives a new word, seen from the loop of R81: the answer taken in it, if
any, brings the loop from what was left of it before the row to what is left after it. -/
theorem StepRow.resume_eq {s u t : State} (h : StepRow u t) (hr : u.hostInput.reset = false)
    (ha : acceptedWords t.log = acceptedWords u.log) (hu : u.Inv) (hf : s.fsm = .idle) (hcfg : u.cfg = s.cfg)
    {fuel : Nat} (hfuel : u.loopsLeft ≤ fuel) :
    ∃ new fuel', t.log = u.log ++ new ∧ t.loopsLeft ≤ fuel' ∧
      ∀ answers, s.resume fuel (answersIn new ++ answers) u = s.resume fuel' answers t := by
  obtain ⟨fuel, rfl⟩ : ∃ m, fuel = m + 1 := ⟨fuel - 1, by unfold State.loopsLeft at hfuel; omega⟩
  cases h with
  | reset hr' => simp [hr] at hr'
  | seed | next | read | write | illegal => simp at ha
  | idleQuiet _ hidle =>
    exact ⟨[], fuel + 1, by simp, hfuel, fun _ => (resume_idle hidle).trans (resume_idle (by simpa using hidle)).symm⟩
  | loopDone _ hloop hrem =>
    refine ⟨_, fuel + 1, rfl, by simp [State.loopsLeft, hrem], fun answers => ?_⟩
    rw [resume_readLoop hloop, resume_idle (by simp), readWhile_done (by simpa using hrem),
      State.withFsm_self (by simpa using hf)]
    rfl
  | loopRefill _ hloop hrem hc =>
    refine ⟨[], fuel, by simp, by simpa [State.loopsLeft, hloop, hc] using hfuel, fun answers => ?_⟩
    have hc' : (s.adopt u).cur = (s.adopt u).cap := by simpa [State.cap, ← hcfg] using hc
    rw [resume_readLoop hloop, resume_refill (by simp), readWhile_refills (by simpa using hrem) hc']
    rfl
  | loopXfer _ hloop hrem hc =>
    refine ⟨[], fuel + 1, by simp, by simpa [State.loopsLeft, hloop, hc.ne] using hfuel, fun answers => ?_⟩
    rw [resume_readLoop hloop, resume_xfer (by simp)]
    rfl
  | refillWord _ hrefill hk =>
    refine ⟨[], fuel + 1, by simp, by simpa [State.loopsLeft, hrefill] using hfuel, fun answers => ?_⟩
    have hleft : s.cfg.capWords - u.k = s.cfg.capWords - (u.k + 1) + 1 := by rw [← hcfg]; omega
    rw [resume_refill hrefill, resume_refill (by simpa using hrefill), hleft,
      finishRefill_succ (by simpa [← hcfg] using hk), hcfg]
    rfl
  | refillEnd _ hrefill hk =>
    have hpos : u.cap ≠ 0 := hu.cap_pos.ne'
    refine ⟨[], fuel + 1, by simp, by simpa [State.loopsLeft, hrefill, hpos.symm] using hfuel, fun answers => ?_⟩
    rw [resume_refill hrefill, resume_readLoop (by simp), hk, hcfg, Nat.sub_self, finishRefill_zero]
    rfl
  | xferWaits _ hxfer _ =>
    exact ⟨[], fuel + 1, by simp, hfuel, fun _ => (resume_xfer hxfer).trans (resume_xfer (by simpa using hxfer)).symm⟩
  | xferAck _ hxfer _ h1 hn hm =>
    obtain ⟨hrem, hc, hlen, hm'⟩ := adopt_chunk hu hxfer hcfg hm
    obtain ⟨hrem', _⟩ := hu.consumeChunk_exact hxfer
    refine ⟨_, fuel, rfl, ?_, fun answers => ?_⟩
    · rw [State.loopsLeft_xfer hxfer] at hfuel
      refine (State.loopsLeft_le _).trans ?_
      change 2 * u.consumeChunk.rem.toNat + 2 ≤ fuel
      omega
    · rw [resume_xfer hxfer, resume_readLoop (by simp)]
      refine (readWhile_ack hrem hc hm').trans ?_
      rw [hlen]
      rfl
  | xferFault _ hxfer _ h1 hn hm =>
    obtain ⟨hrem, hc, _, hm'⟩ := adopt_chunk hu hxfer hcfg hm
    refine ⟨_, fuel + 1, List.append_assoc _ _ _, by simpa [State.loopsLeft, hxfer] using hfuel, fun answers => ?_⟩
    rw [resume_xfer hxfer, resume_idle (by simp)]
    refine (readWhile_fault hrem hc hm').trans ?_
    rw [State.raise_idle (by simpa using hf)]
    rfl

/-- The acceptance of READ keeps the invariant: ACC + REM is the READ's LEN, which fits 56 bits. -/
theorem State.Inv.read_accepted {s : State} (hs : s.Inv) (n : Len) : ((s.loadRead n).withFsm .readLoop).Inv where
  cfgWf := hs.cfgWf
  bufWf := hs.bufWf
  bufWithin := hs.bufWithin
  nonZero := hs.nonZero
  curLe := hs.curLe
  kLe := hs.kLe
  nchLe := hs.nchLe
  sumLt _ := by simpa using n.isLt
  known := hs.known
  refill := nofun
  xfer := nofun

/-- The FSM in `u` and the loop of R81 begun in `s` with READ `n` have the same left to do, whatever answers are still to come. -/
structure State.Refines (s : State) (n : Len) (u : State) : Prop where
  inv : u.Inv
  cfg : u.cfg = s.cfg
  resume : ∃ new fuel, u.log = s.log ++ new ∧ u.loopsLeft ≤ fuel ∧
    ∀ answers, readAlgorithm n (answersIn new ++ answers) s = s.resume fuel answers u

theorem refines_accepted {s : State} (hs : s.Inv) (n : Len) : s.Refines n ((s.loadRead n).withFsm .readLoop) where
  inv := hs.read_accepted n
  cfg := rfl
  resume := by
    refine ⟨[], 2 * n.toNat + 2, by simp, State.loopsLeft_le _, fun answers => ?_⟩
    rw [resume_readLoop rfl, State.adopt_accepted]
    rfl

theorem step_refines {s u t : State} {n : Len} (hf : s.fsm = .idle) (hr : u.hostInput.reset = false)
    (h : step u = .next t) (ha : acceptedWords t.log = acceptedWords u.log) (hu : s.Refines n u) : s.Refines n t := by
  have row := stepRow_of_step h
  obtain ⟨new, fuel, hlog, hfuel, hresume⟩ := hu.resume
  obtain ⟨new', fuel', hlog', hfuel', hresume'⟩ := row.resume_eq hr ha hu.inv hf hu.cfg hfuel
  refine ⟨row.inv hu.inv, row.cfg_eq.trans hu.cfg, new ++ new', fuel', by rw [hlog', hlog, List.append_assoc], hfuel',
    fun answers => ?_⟩
  rw [answersIn_append, List.append_assoc, hresume, hresume']

/-- Settles O51: the rows keep what is left of the loop, and in IDLE nothing is left of it. -/
theorem readFsmRefinesAlgorithm : Obligations.ReadFsmRefinesAlgorithm := by
  unfold Obligations.ReadFsmRefinesAlgorithm
  intro s t u n k hs hf hexec hr hrun ha hu
  cases hexec
  have hfinal := run_keeps (fun _ _ hr hst ha => step_refines hf hr hst ha) hr hrun ha (refines_accepted hs n)
  obtain ⟨new, fuel, hlog, _, hresume⟩ := hfinal.resume
  exact ⟨new, s.adopt u, hlog, by simpa [resume_idle hu] using hresume [], State.sameRead_adopt hf hu hfinal.cfg⟩

end Sys2Proof.Machine
end

section
/-! PROOFS. 41_stream_buffer, fourth part: what a READ comes to, counted (R97, R102) and byte by byte (R96), and how it ends
(R90). -/

namespace Sys2Proof.Machine

/-! ## The counts of R97 obey the loop of R81 -/

section
variable {cap c n m : Nat}

/-- One refill for each whole capacity that lies below the READ's last byte, counted from where BUF begins. -/
theorem refillCount_eq (hcap : 0 < cap) (hc : c ≤ cap) : refillCount cap c n = (c + n - 1) / cap := by
  unfold refillCount
  split
  · exact (Nat.div_eq_of_lt (by omega)).symm
  · congr 1; omega

theorem refillCount_zero (cap c : Nat) : refillCount cap c 0 = 0 := if_pos (Nat.zero_le _)

theorem offerCount_zero (cap c : Nat) : offerCount cap c 0 = 0 := by
  simp [offerCount, refillCount_zero]

/-- Bytes taken from BUF need no refill. -/
theorem refillCount_chunk (hcap : 0 < cap) (hn : m ≤ n) (hc : c + m ≤ cap) :
    refillCount cap (c + m) (n - m) = refillCount cap c n := by
  rw [refillCount_eq hcap hc, refillCount_eq hcap (by omega)]
  congr 1; omega

/-- With BUF exhausted and a byte to deliver there is one refill now. -/
theorem refillCount_exhausted (hcap : 0 < cap) (hn : 0 < n) : refillCount cap cap n = refillCount cap 0 n + 1 := by
  rw [refillCount_eq hcap le_rfl, refillCount_eq hcap (Nat.zero_le _), ← Nat.add_div_right _ hcap]
  congr 1; omega

/-- A refill is no offer. -/
theorem offerCount_exhausted (hcap : 0 < cap) (hn : 0 < n) : offerCount cap cap n = offerCount cap 0 n := by
  simp [offerCount, refillCount_exhausted hcap hn, hcap, hn]

/-- A chunk as long as R83 says is one offer. -/
theorem offerCount_chunk (hcap : 0 < cap) (hm : m = min n (cap - c)) (h1 : 1 ≤ m) :
    offerCount cap c n = offerCount cap (c + m) (n - m) + 1 := by
  have hmore : ¬ (c + m < cap ∧ 0 < n - m) := by omega
  rw [offerCount, offerCount, refillCount_chunk hcap (by omega) (by omega), if_pos (by omega), if_neg hmore]

end

/-! ## Bytes drawn one by one -/

/-- Where a READ takes its bytes from. -/
@[ext] structure ByteSource where
  gen : GeneratorState
  buf : Memory
  cur : Nat

def State.source (s : State) : ByteSource := ⟨s.gen, s.buf, s.cur⟩

/-- The source after the last `n` words of a refill, from word `k` on. -/
def ByteSource.refill (bo : ByteOrder) : Nat → Nat → ByteSource → ByteSource
  | 0, _, x => { x with cur := 0 }
  | n + 1, k, x => ByteSource.refill bo n (k + 1)
      { x with gen := (engineStep x.gen).1, buf := Memory.putBytes x.buf (8 * k) (bytesBO bo (engineStep x.gen).2) }

/-- The source with a byte to give: refilled where BUF is exhausted. -/
def ByteSource.ready (cfg : Config) (x : ByteSource) : ByteSource :=
  if x.cur = cfg.cap then x.refill cfg.byteOrder cfg.capWords 0 else x

def ByteSource.advance (m : Nat) (x : ByteSource) : ByteSource := { x with cur := x.cur + m }

/-- The source after `n` bytes drawn one by one. -/
def ByteSource.after (cfg : Config) : Nat → ByteSource → ByteSource
  | 0, x => x
  | n + 1, x => ByteSource.after cfg n ((x.ready cfg).advance 1)

/-- Those bytes; none in the place of one that is unknown. -/
def ByteSource.bytes (cfg : Config) : Nat → ByteSource → List (Option Byte)
  | 0, _ => []
  | n + 1, x => Memory.byteAt (x.ready cfg).buf (x.ready cfg).cur :: ByteSource.bytes cfg n ((x.ready cfg).advance 1)

/-- Engine steps add up. -/
theorem engineAfter_add (m n : Nat) (g : GeneratorState) : engineAfter (m + n) g = engineAfter n (engineAfter m g) := by
  induction m generalizing g with
  | zero => rw [Nat.zero_add]; rfl
  | succ m ih => rw [Nat.succ_add]; exact ih _

namespace ByteSource

variable {cfg : Config} {x : ByteSource} {m n : Nat}

theorem bytes_length (n : Nat) (x : ByteSource) : (x.bytes cfg n).length = n := by
  induction n generalizing x with
  | zero => rfl
  | succ n ih => simp [bytes, ih]

theorem after_add (m n : Nat) (x : ByteSource) : x.after cfg (m + n) = (x.after cfg m).after cfg n := by
  induction m generalizing x with
  | zero => rw [Nat.zero_add]; rfl
  | succ m ih => rw [Nat.succ_add]; exact ih _

theorem bytes_add (m n : Nat) (x : ByteSource) :
    x.bytes cfg (m + n) = x.bytes cfg m ++ (x.after cfg m).bytes cfg n := by
  induction m generalizing x with
  | zero => rw [Nat.zero_add]; rfl
  | succ m ih =>
    rw [Nat.succ_add]
    exact congrArg (_ :: ·) (ih _)

theorem refill_cur (bo : ByteOrder) (n k : Nat) (x : ByteSource) : (x.refill bo n k).cur = 0 := by
  induction n generalizing k x with
  | zero => rfl
  | succ n ih => exact ih _ _

theorem refill_gen (bo : ByteOrder) (n k : Nat) (x : ByteSource) : (x.refill bo n k).gen = engineAfter n x.gen := by
  induction n generalizing k x with
  | zero => rfl
  | succ n ih => exact ih _ _

theorem ready_exhausted (h : x.cur = cfg.cap) : x.ready cfg = x.refill cfg.byteOrder cfg.capWords 0 := if_pos h

theorem ready_unread (h : x.cur ≠ cfg.cap) : x.ready cfg = x := if_neg h

/-- A source that has just been refilled is ready. -/
theorem ready_ready (hcap : 0 < cfg.cap) : (x.ready cfg).ready cfg = x.ready cfg := by
  by_cases h : x.cur = cfg.cap
  · rw [ready_exhausted h, ready_unread (by rw [refill_cur]; omega)]
  · rw [ready_unread h, ready_unread h]

/-- The first byte drawn would have made the source ready anyway. -/
theorem after_ready (hcap : 0 < cfg.cap) (hn : 0 < n) : (x.ready cfg).after cfg n = x.after cfg n := by
  cases n with
  | zero => omega
  | succ n => rw [after, after, ready_ready hcap]

theorem bytes_ready (hcap : 0 < cfg.cap) (hn : 0 < n) : (x.ready cfg).bytes cfg n = x.bytes cfg n := by
  cases n with
  | zero => omega
  | succ n => rw [bytes, bytes, ready_ready hcap]

/-- The bytes of a chunk, drawn one by one, are those MemRead reads, and only CUR moves. -/
theorem draw_chunk {bs : List Byte} (h : memRead cfg x.buf x.cur m = .ok bs) :
    x.after cfg m = x.advance m ∧ x.bytes cfg m = bs.map some := by
  obtain ⟨hcap, rfl, hbs⟩ := memRead_ok h
  clear h
  induction bs generalizing x with
  | nil => exact ⟨rfl, rfl⟩
  | cons b bs ih =>
    simp only [List.length_cons] at hcap hbs
    have hready : x.ready cfg = x := ready_unread (by omega)
    have hfirst : Memory.byteAt x.buf x.cur = some b := by simpa using (hbs 0 (by omega)).symm
    obtain ⟨hafter, hbytes⟩ := ih (x := x.advance 1) (by simp only [advance]; omega) fun j hj => by
      have := hbs (j + 1) (by omega)
      simpa [advance, Nat.add_assoc, Nat.add_comm 1 j] using this
    rw [List.length_cons, after, bytes, hready, hafter, hbytes, hfirst]
    exact ⟨by simp [advance, Nat.add_assoc, Nat.add_comm 1], rfl⟩

/-- R97 for bytes drawn one by one: the engine steps are those of R97's refills, and CUR is where R97 says. -/
theorem after_counts (hcap : 0 < cfg.cap) (hc : x.cur ≤ cfg.cap) :
    (x.after cfg n).gen = engineAfter (refillCount cfg.cap x.cur n * cfg.capWords) x.gen ∧
      (x.after cfg n).cur + refillCount cfg.cap x.cur n * cfg.cap = x.cur + n := by
  induction n generalizing x with
  | zero => simp [after, refillCount_zero, engineAfter]
  | succ n ih =>
    by_cases h : x.cur = cfg.cap
    · have hcur : ((x.ready cfg).advance 1).cur = 0 + 1 := by rw [ready_exhausted h, advance, refill_cur]
      have hgen : ((x.ready cfg).advance 1).gen = engineAfter cfg.capWords x.gen := by
        rw [ready_exhausted h, advance, refill_gen]
      obtain ⟨ihgen, ihcur⟩ := ih (x := (x.ready cfg).advance 1) (by omega)
      have hcount : refillCount cfg.cap (0 + 1) n = refillCount cfg.cap 0 (n + 1) :=
        refillCount_chunk hcap (Nat.succ_le_succ (Nat.zero_le n)) (by omega)
      rw [hcur, hcount] at ihgen ihcur
      rw [after, h, refillCount_exhausted (n := n + 1) hcap (by omega), ihgen, hgen, ← engineAfter_add]
      exact ⟨by congr 1; ring, by rw [Nat.succ_mul]; omega⟩
    · obtain ⟨ihgen, ihcur⟩ := ih (x := x.advance 1) (by simp only [advance]; omega)
      have hcount : refillCount cfg.cap (x.cur + 1) n = refillCount cfg.cap x.cur (n + 1) :=
        refillCount_chunk hcap (Nat.succ_le_succ (Nat.zero_le n)) (by omega)
      simp only [advance] at ihgen ihcur
      rw [hcount] at ihgen ihcur
      rw [after, ready_unread h]
      exact ⟨ihgen, by simp only [advance]; omega⟩

end ByteSource

/-! ## What the READ in progress comes to -/

/-- The source once the refill in progress, if there is one, has ended. -/
def State.nextSource (u : State) : ByteSource :=
  if u.fsm = .refill then u.source.refill u.cfg.byteOrder (u.cfg.capWords - u.k) u.k else u.source

theorem State.nextSource_refill {u : State} (h : u.fsm = .refill) :
    u.nextSource = u.source.refill u.cfg.byteOrder (u.cfg.capWords - u.k) u.k := if_pos h

theorem State.nextSource_other {u : State} (h : u.fsm ≠ .refill) : u.nextSource = u.source := if_neg h

/-- The source when every byte still to deliver has been drawn, and the bytes delivered by then. -/
def State.outcome (u : State) : ByteSource × List (Option Byte) :=
  (u.nextSource.after u.cfg u.rem.toNat,
    (deliveredIn u.log).map some ++ u.nextSource.bytes u.cfg u.rem.toNat)

/-- Two states with the same bytes to deliver, delivered and to draw from come to the same. -/
theorem State.outcome_congr {u t : State} (hcfg : t.cfg = u.cfg) (hrem : t.rem = u.rem)
    (hdel : deliveredIn t.log = deliveredIn u.log) (hsource : t.nextSource = u.nextSource) :
    t.outcome = u.outcome := by
  rw [State.outcome, State.outcome, hcfg, hrem, hdel, hsource]

/-- Serving the chunk on offer draws its bytes. -/
theorem State.outcome_chunk {u t : State} {bs : List Byte} (hm : memRead u.cfg u.buf u.cur u.nch = .ok bs)
    (hn : u.nch ≤ u.rem.toNat) (hf : u.fsm ≠ .refill) (hf' : t.fsm ≠ .refill) (hcfg : t.cfg = u.cfg)
    (hsource : t.source = u.source.advance u.nch) (hrem : t.rem.toNat = u.rem.toNat - u.nch)
    (hdel : deliveredIn t.log = deliveredIn u.log ++ bs) : t.outcome = u.outcome := by
  obtain ⟨hafter, hbytes⟩ := ByteSource.draw_chunk (x := u.source) hm
  have hsplit : u.rem.toNat = u.nch + t.rem.toNat := by omega
  rw [State.outcome, State.outcome, State.nextSource_other hf, State.nextSource_other hf', hcfg, hsplit,
    ByteSource.after_add, ByteSource.bytes_add, hafter, hbytes, hsource, hdel, List.map_append, List.append_assoc]

/-- The offers still to be answered. -/
def State.offersLeft (u : State) : Nat := offerCount u.cap u.cur u.rem.toNat

namespace StepRow

variable {u t : State}

/-- Without reset and without a new word every row keeps what the READ comes to. -/
theorem outcome_eq (h : StepRow u t) (hr : u.hostInput.reset = false)
    (ha : acceptedWords t.log = acceptedWords u.log) (hu : u.Inv) : t.outcome = u.outcome := by
  cases h with
  | reset hr' => simp [hr] at hr'
  | seed | next | read | write | illegal => simp at ha
  | idleQuiet | xferWaits => exact State.outcome_congr rfl rfl rfl rfl
  | loopDone _ hf | loopXfer _ hf | xferFault _ hf =>
    exact State.outcome_congr rfl rfl (by simp) (by
      rw [State.nextSource_other (by simp), State.nextSource_other (by simp [hf])]; rfl)
  | loopRefill _ hf hrem hc =>
    have hpos := toNat_pos_of_ne_zero hrem
    have hsource : ((u.consumeInput.withK 0).withFsm .refill).nextSource = u.nextSource.ready u.cfg := by
      rw [State.nextSource_refill (by simp), State.nextSource_other (by simp [hf]), ByteSource.ready_exhausted hc]
      rfl
    simp only [State.outcome, hsource]
    exact congrArg₂ Prod.mk (ByteSource.after_ready hu.cap_pos hpos)
      (congrArg (_ ++ ·) (ByteSource.bytes_ready hu.cap_pos hpos))
  | refillWord _ hf hk =>
    have hleft : u.cfg.capWords - u.k = u.cfg.capWords - (u.k + 1) + 1 := by omega
    exact State.outcome_congr rfl rfl rfl (by
      rw [State.nextSource_refill (by simpa using hf), State.nextSource_refill hf, hleft]; rfl)
  | refillEnd _ hf hk =>
    exact State.outcome_congr rfl rfl rfl (by
      rw [State.nextSource_other (by simp), State.nextSource_refill hf, hk, Nat.sub_self]; rfl)
  | xferAck _ hf _ _ hn hm =>
    obtain ⟨hrem, _⟩ := hu.consumeChunk_exact hf
    exact State.outcome_chunk hm hn (by simp [hf]) (by simp) (by simp) (by simp [State.source, ByteSource.advance])
      (by simpa using hrem) (by simp)

/-- Without a FAULT every row keeps the offers answered and still to be answered, all of them with ACK. -/
theorem offers_eq (h : StepRow u t) (hr : u.hostInput.reset = false) (ha : acceptedWords t.log = acceptedWords u.log)
    (hu : u.Inv) (hack : u.fsm = .xfer → u.hostInput.ans ≠ some .fault) :
    answersIn t.log ++ List.replicate t.offersLeft Answer.ack = answersIn u.log ++ List.replicate u.offersLeft Answer.ack := by
  cases h with
  | reset hr' => simp [hr] at hr'
  | seed | next | read | write | illegal => simp at ha
  | idleQuiet | xferWaits | loopRefill | loopXfer | refillWord => rfl
  | loopDone => simp [State.offersLeft]
  | refillEnd _ hf =>
    obtain ⟨hc, hrem, _⟩ := hu.refill hf
    have hsame := offerCount_exhausted hu.cap_pos (toNat_pos_of_ne_zero hrem)
    rw [State.offersLeft, State.offersLeft, hc]
    exact congrArg (fun o => _ ++ List.replicate o _) hsame.symm
  | xferAck _ hf _ h1 =>
    have hone : u.offersLeft = offerCount u.cap (u.cur + u.nch) u.consumeChunk.rem.toNat + 1 := by
      obtain ⟨hrem, _⟩ := hu.consumeChunk_exact hf
      rw [hrem]
      exact offerCount_chunk hu.cap_pos (hu.xfer hf).2 h1
    rw [hone, List.replicate_succ]
    simp [State.offersLeft]
  | xferFault _ hf hans => exact absurd hans (hack hf)

end StepRow

/-! ## A READ on its way -/

/-- `u` is a state of the READ `n` begun in `s`, or of the quiet IDLE after it, and no chunk was answered FAULT. -/
structure State.OnTrack (s : State) (n : Len) (u : State) : Prop where
  inv : u.Inv
  cfg : u.cfg = s.cfg
  log : ∃ new, u.log = s.log ++ new
  accepted : acceptedWords u.log = acceptedWords s.log
  sum : u.acc.toNat + u.rem.toNat = n.toNat
  outcome : u.outcome =
    (s.source.after s.cfg n.toNat, (deliveredIn s.log).map some ++ s.source.bytes s.cfg n.toNat)
  offers : answersIn u.log ++ List.replicate u.offersLeft Answer.ack =
    answersIn s.log ++ List.replicate (offerCount s.cap s.cur n.toNat) Answer.ack
  busy : u.fsm ≠ .idle → responsesIn u.log = responsesIn s.log
  done : u.fsm = .idle → u.rem = 0#56 ∧ responsesIn u.log = responsesIn s.log ++ [⟨.ok, 0#64, n⟩]

theorem onTrack_accepted {s : State} {n : Len} (h : ((s.loadRead n).withFsm .readLoop).Inv) :
    s.OnTrack n ((s.loadRead n).withFsm .readLoop) where
  inv := h
  cfg := rfl
  log := ⟨[], by simp⟩
  accepted := rfl
  sum := by simp
  outcome := by rw [State.outcome, State.nextSource_other (by simp)]; rfl
  offers := rfl
  busy _ := rfl
  done := nofun

namespace StepRow

variable {u t : State}

/-- A row out of a busy state responds when it enters IDLE, with OK and ACC unless the chunk was answered FAULT. -/
theorem responses_eq (h : StepRow u t) (hr : u.hostInput.reset = false) (hf : u.fsm ≠ .idle)
    (hack : u.fsm = .xfer → u.hostInput.ans ≠ some .fault) :
    (t.fsm ≠ .idle ∧ responsesIn t.log = responsesIn u.log) ∨
      (t.fsm = .idle ∧ u.rem = 0#56 ∧ t.rem = 0#56 ∧ responsesIn t.log = responsesIn u.log ++ [⟨.ok, 0#64, u.acc⟩]) := by
  cases h with
  | reset hr' => simp [hr] at hr'
  | idleQuiet _ h' | seed _ h' | next _ h' | read _ h' | write _ h' | illegal _ h' => exact absurd h' hf
  | loopDone _ _ hrem => exact .inr ⟨by simp, hrem, by simpa using hrem, by simp⟩
  | xferFault _ hf hans => exact absurd hans (hack hf)
  | _ => exact .inl (by simp [*])

/-- A row out of IDLE without reset and without a word takes the host's move and nothing else. -/
theorem eq_of_idle (h : StepRow u t) (hr : u.hostInput.reset = false) (hf : u.fsm = .idle)
    (ha : acceptedWords t.log = acceptedWords u.log) : t = u.consumeInput := by
  cases h with
  | reset hr' => simp [hr] at hr'
  | seed | next | read | write | illegal => simp at ha
  | idleQuiet => rfl
  | _ => simp_all

/-- Without a FAULT the READ stays on its way. -/
theorem onTrack {s : State} {n : Len} (h : StepRow u t) (hr : u.hostInput.reset = false)
    (ha : acceptedWords t.log = acceptedWords u.log) (hu : s.OnTrack n u)
    (hack : u.fsm = .xfer → u.hostInput.ans ≠ some .fault) : s.OnTrack n t where
  inv := h.inv hu.inv
  cfg := h.cfg_eq.trans hu.cfg
  log := by
    obtain ⟨new, hnew⟩ := hu.log
    obtain ⟨new', hnew'⟩ := step_log (step_of_stepRow h)
    exact ⟨new ++ new', by rw [hnew', hnew, List.append_assoc]⟩
  accepted := ha.trans hu.accepted
  sum := by
    by_cases hf : u.fsm = .idle
    · rw [h.eq_of_idle hr hf ha]; exact hu.sum
    · rw [h.sum_eq hr hf (hu.inv.sumLt hf), hu.sum]
  outcome := (h.outcome_eq hr ha hu.inv).trans hu.outcome
  offers := (h.offers_eq hr ha hu.inv hack).trans hu.offers
  busy hb := by
    by_cases hf : u.fsm = .idle
    · rw [h.eq_of_idle hr hf ha] at hb; exact absurd hf hb
    · rcases h.responses_eq hr hf hack with ⟨_, hresp⟩ | ⟨hidle, _⟩
      · rw [hresp, hu.busy hf]
      · exact absurd hidle hb
  done hd := by
    by_cases hf : u.fsm = .idle
    · rw [h.eq_of_idle hr hf ha]; exact hu.done hf
    · rcases h.responses_eq hr hf hack with ⟨hb, _⟩ | ⟨_, hrem, hrem', hresp⟩
      · exact absurd hd hb
      · have hacc : u.acc = n := BitVec.eq_of_toNat_eq (by simpa [hrem] using hu.sum)
        exact ⟨hrem', by rw [hresp, hu.busy hf, hacc]⟩

end StepRow

/-! ## How a READ ends (R90, R97) -/

/-- What `new` and the end of a READ of `n` bytes begun in `s` are, when it ends with OK. -/
def State.EndsExact (s : State) (n : Len) (u : State) (new : List Event) : Prop :=
  responsesIn new = [⟨.ok, 0#64, n⟩] ∧ (deliveredIn new).length = n.toNat ∧
    answersIn new = List.replicate (offerCount s.cap s.cur n.toNat) .ack ∧
    u.gen = engineAfter (refillCount s.cap s.cur n.toNat * s.cfg.capWords) s.gen ∧
    u.cur + refillCount s.cap s.cur n.toNat * s.cap = s.cur + n.toNat

/-- What `new` is when it ends with TRANSFER_FAULT. -/
def EndsFaulted (n : Len) (new : List Event) : Prop :=
  ∃ m : Len, responsesIn new = [⟨.transferFault, 0#64, m⟩] ∧ (deliveredIn new).length = m.toNat ∧
    m.toNat < n.toNat ∧ (answersIn new).getLast? = some .fault

namespace State.OnTrack

variable {s u : State} {n : Len} {new : List Event}

/-- In IDLE every byte has been drawn. -/
theorem drawn (h : s.OnTrack n u) (hf : u.fsm = .idle) :
    u.source = s.source.after s.cfg n.toNat ∧
      (deliveredIn u.log).map some = (deliveredIn s.log).map some ++ s.source.bytes s.cfg n.toNat := by
  have hout := h.outcome
  obtain ⟨hrem, _⟩ := h.done hf
  rw [State.outcome, hrem, State.nextSource_other (by simp [hf])] at hout
  simpa [ByteSource.after, ByteSource.bytes] using hout

/-- What is delivered and what is left make up `n`. -/
theorem delivered_length (h : s.OnTrack n u) (hlog : u.log = s.log ++ new) :
    (deliveredIn new).length = u.acc.toNat := by
  have hlen := congrArg (fun o => o.2.length) h.outcome
  have hsum := h.sum
  simp only [State.outcome, hlog, deliveredIn_append, List.map_append, List.length_append, List.length_map,
    ByteSource.bytes_length] at hlen
  omega

theorem endsExact (h : s.OnTrack n u) (hc : s.cur ≤ s.cap) (hf : u.fsm = .idle) (hlog : u.log = s.log ++ new) :
    s.EndsExact n u new := by
  obtain ⟨hrem, hresp⟩ := h.done hf
  obtain ⟨hsource, _⟩ := h.drawn hf
  obtain ⟨hgen, hcur⟩ := ByteSource.after_counts (x := s.source) (n := n.toNat) (h.cfg ▸ h.inv.cap_pos) hc
  rw [← hsource] at hgen hcur
  refine ⟨by simpa [hlog] using hresp, ?_, ?_, hgen, hcur⟩
  · have hsum := h.sum
    rw [h.delivered_length hlog]
    simpa [hrem] using hsum
  · have hoffers := h.offers
    simpa [hlog, State.offersLeft, hrem, offerCount_zero] using hoffers

end State.OnTrack

/-- A FAULT ends the READ, whatever came before it. -/
theorem State.OnTrack.endsFaulted {s u t : State} {n : Len} (h : s.OnTrack n u) (hstep : StepRow u t)
    (hr : u.hostInput.reset = false) (hf : u.fsm = .xfer) (hans : u.hostInput.ans = some .fault) :
    t.fsm = .idle ∧ ∃ new, t.log = s.log ++ new ∧ EndsFaulted n new := by
  obtain ⟨new, hlog⟩ := h.log
  obtain ⟨bs, _, hfault⟩ := h.inv.step_faulted hr hf hans
  cases (step_of_stepRow hstep).symm.trans hfault
  have hresp := h.busy (by simp [hf])
  have hsum := h.sum
  obtain ⟨h1, hrem, _⟩ := h.inv.chunkBounds hf
  refine ⟨by simp, new ++ [Event.offered bs .fault, .responded ⟨.transferFault, 0#64, u.acc⟩],
    by simp [hlog, BlockError.status], u.acc, ?_, ?_, by omega, by simp⟩
  · simpa [hlog] using hresp
  · simpa using h.delivered_length hlog

/-- `u` is a state of the READ `n` begun in `s`, or of the quiet IDLE after its end. -/
def State.InReadFrom (s : State) (n : Len) (u : State) : Prop :=
  s.OnTrack n u ∨ (u.fsm = .idle ∧ ∃ new, u.log = s.log ++ new ∧ EndsFaulted n new)

theorem step_inReadFrom {s u t : State} {n : Len} (hr : u.hostInput.reset = false) (h : step u = .next t)
    (ha : acceptedWords t.log = acceptedWords u.log) (hu : s.InReadFrom n u) : s.InReadFrom n t := by
  have row := stepRow_of_step h
  rcases hu with hu | ⟨hf, hend⟩
  · by_cases hfault : u.fsm = .xfer ∧ u.hostInput.ans = some .fault
    · exact .inr (hu.endsFaulted row hr hfault.1 hfault.2)
    · exact .inl (row.onTrack hr ha hu fun hf hans => hfault ⟨hf, hans⟩)
  · rw [row.eq_of_idle hr hf ha]
    exact .inr ⟨hf, hend⟩

/-- Settles O49: every step keeps the READ on its way or ends it with a FAULT. -/
theorem readEndsExactOrFaulted : Obligations.ReadEndsExactOrFaulted := by
  unfold Obligations.ReadEndsExactOrFaulted
  intro s t u n k hs hf hexec hr hrun ha hu
  cases hexec
  have hstart : s.InReadFrom n ((s.loadRead n).withFsm .readLoop) := .inl (onTrack_accepted (hs.read_accepted n))
  rcases run_keeps (fun _ _ => step_inReadFrom) hr hrun ha hstart with htrack | ⟨_, new, hlog, hend⟩
  · obtain ⟨new, hlog⟩ := htrack.log
    exact ⟨new, hlog, .inl (htrack.endsExact hs.curLe hu hlog)⟩
  · exact ⟨new, hlog, .inr hend⟩

end Sys2Proof.Machine
end

section
/-! PROOFS. 41_stream_buffer, fifth part: the READ whose offers are all acknowledged (R102), and chunking invariance (R96). -/

namespace Sys2Proof.Machine

/-! ## The steps of R102 -/

/-- The steps of a READ in READ_LOOP to its end, when no step waits: those of R102 but for the acceptance. -/
def loopSteps (cfg : Config) (c n : Nat) : Nat :=
  (refillCount cfg.cap c n + offerCount cfg.cap c n + 1) + refillCount cfg.cap c n * (cfg.capWords + 1)
    + offerCount cfg.cap c n

theorem readSteps_eq (cfg : Config) (c n : Nat) : readSteps cfg c n = loopSteps cfg c n + 1 := by
  unfold readSteps loopSteps
  omega

theorem loopSteps_zero (cfg : Config) (c : Nat) : loopSteps cfg c 0 = 1 := by
  simp [loopSteps, refillCount_zero, offerCount_zero]

/-- A refill takes a step to begin, one for each word and one to end. -/
theorem loopSteps_exhausted {cfg : Config} {n : Nat} (hcap : 0 < cfg.cap) (hn : 0 < n) :
    loopSteps cfg cfg.cap n = (cfg.capWords + 1 + loopSteps cfg 0 n) + 1 := by
  rw [loopSteps, loopSteps, refillCount_exhausted hcap hn, offerCount_exhausted hcap hn, Nat.succ_mul]
  omega

/-- A chunk takes a step to offer and one to acknowledge. -/
theorem loopSteps_chunk {cfg : Config} {c n m : Nat} (hcap : 0 < cfg.cap) (hm : m = min n (cfg.cap - c)) (h1 : 1 ≤ m) :
    loopSteps cfg c n = (loopSteps cfg (c + m) (n - m) + 1) + 1 := by
  rw [loopSteps, loopSteps, offerCount_chunk hcap hm h1, refillCount_chunk (m := m) (n := n) hcap (by omega) (by omega)]
  omega

/-- The steps to the end of the READ in progress, when no step waits. -/
def State.stepsLeft (u : State) : Nat :=
  match u.fsm with
  | .idle => 0
  | .readLoop => loopSteps u.cfg u.cur u.rem.toNat
  | .refill => u.cfg.capWords - u.k + 1 + loopSteps u.cfg 0 u.rem.toNat
  | .xfer => loopSteps u.cfg (u.cur + u.nch) (u.rem.toNat - u.nch) + 1

section
variable {u : State}

theorem stepsLeft_idle (h : u.fsm = .idle) : u.stepsLeft = 0 := by simp [State.stepsLeft, h]

theorem stepsLeft_readLoop (h : u.fsm = .readLoop) : u.stepsLeft = loopSteps u.cfg u.cur u.rem.toNat := by
  simp [State.stepsLeft, h]

theorem stepsLeft_refill (h : u.fsm = .refill) :
    u.stepsLeft = u.cfg.capWords - u.k + 1 + loopSteps u.cfg 0 u.rem.toNat := by
  simp [State.stepsLeft, h]

theorem stepsLeft_xfer (h : u.fsm = .xfer) :
    u.stepsLeft = loopSteps u.cfg (u.cur + u.nch) (u.rem.toNat - u.nch) + 1 := by
  simp [State.stepsLeft, h]

theorem stepsLeft_accepted (s : State) (n : Len) :
    ((s.loadRead n).withFsm .readLoop).stepsLeft = loopSteps s.cfg s.cur n.toNat := by
  simp [State.stepsLeft]

/-- A busy block has a step left. -/
theorem stepsLeft_eq_zero_iff : u.stepsLeft = 0 ↔ u.fsm = .idle := by
  cases hf : u.fsm with
  | idle => simp [stepsLeft_idle hf]
  | readLoop => simp [stepsLeft_readLoop hf, loopSteps]
  | refill => simp [stepsLeft_refill hf]
  | xfer => simp [stepsLeft_xfer hf]

end

/-- Without reset a row out of a busy state, which answers ACK to a chunk on offer, is one of the steps that were left. -/
theorem StepRow.stepsLeft_eq {u t : State} (h : StepRow u t) (hr : u.hostInput.reset = false) (hu : u.Inv)
    (hf : u.fsm ≠ .idle) (hack : u.fsm = .xfer → u.hostInput.ans = some .ack) : u.stepsLeft = t.stepsLeft + 1 := by
  cases h with
  | reset hr' => simp [hr] at hr'
  | idleQuiet _ h' | seed _ h' | next _ h' | read _ h' | write _ h' | illegal _ h' => exact absurd h' hf
  | loopDone _ hf hrem => rw [stepsLeft_readLoop hf, stepsLeft_idle (by simp), hrem]; exact loopSteps_zero _ _
  | loopRefill _ hf hrem hc =>
    rw [stepsLeft_readLoop hf, stepsLeft_refill (by simp), hc]
    exact loopSteps_exhausted hu.cap_pos (toNat_pos_of_ne_zero hrem)
  | loopXfer _ hf hrem hc =>
    rw [stepsLeft_readLoop hf, stepsLeft_xfer (by simp)]
    exact loopSteps_chunk hu.cap_pos rfl (u.one_le_chunkLength hrem hc)
  | refillWord _ hf hk =>
    have hleft : u.cfg.capWords - u.k = u.cfg.capWords - (u.k + 1) + 1 := by omega
    rw [stepsLeft_refill hf, stepsLeft_refill (by simpa using hf), hleft, Nat.add_right_comm _ 1]
    rfl
  | refillEnd _ hf hk =>
    rw [stepsLeft_refill hf, stepsLeft_readLoop (by simp), hk, Nat.sub_self, Nat.zero_add, Nat.add_comm]
    rfl
  | xferWaits _ hf hans => simp [hack hf] at hans
  | xferAck _ hf =>
    obtain ⟨hrem, _⟩ := hu.consumeChunk_exact hf
    rw [stepsLeft_xfer hf, stepsLeft_readLoop (by simp), ← hrem]
    simp
  | xferFault _ hf hans => simp [hack hf] at hans

/-! ## The run of R102 -/

/-- Accepting a word always answers a next state. -/
theorem accept_next (c : Word) (s : State) : ∃ t, accept c s = .next t := by
  cases hd : decode c with
  | illegal x => exact ⟨_, accept_illegal s hd⟩
  | instr i => rw [accept_instr s hd]; cases i <;> exact ⟨_, rfl⟩

/-- Under the invariant every step answers a next state, whatever the host does. -/
theorem State.Inv.exists_step {u : State} (hu : u.Inv) : ∃ t, step u = .next t := by
  cases hr : u.hostInput.reset with
  | true => exact ⟨_, step_reset hr⟩
  | false =>
    cases hf : u.fsm with
    | idle =>
      cases hw : u.hostInput.word with
      | none => exact ⟨_, step_idle_quiet hr hf hw⟩
      | some c => rw [step_accept hr hf hw]; exact accept_next c _
    | readLoop =>
      by_cases hrem : u.rem = 0#56
      · exact ⟨_, step_readLoop_done hr hf hrem⟩
      rcases Nat.lt_or_eq_of_le hu.curLe with hc | hc
      · exact ⟨_, step_readLoop_xfer hr hf hrem hc⟩
      · exact ⟨_, step_readLoop_refill hr hf hrem hc⟩
    | refill =>
      rcases Nat.lt_or_eq_of_le hu.kLe with hk | hk
      · exact ⟨_, step_refill_word hr hf hk⟩
      · exact ⟨_, step_refill_end hr hf hk⟩
    | xfer =>
      cases ha : u.hostInput.ans with
      | none => exact ⟨_, step_xfer_waits hr hf ha⟩
      | some a =>
        cases a with
        | ack => obtain ⟨_, _, h⟩ := hu.step_ack hr hf ha; exact ⟨_, h⟩
        | fault => obtain ⟨_, _, h⟩ := hu.step_faulted hr hf ha; exact ⟨_, h⟩

/-- A busy block accepts no word (70_reset_and_hazards R131). -/
theorem StepRow.accepts_none {u t : State} (h : StepRow u t) (hf : u.fsm ≠ .idle) :
    acceptedWords t.log = acceptedWords u.log := by
  obtain ⟨new, hlog, hprogress⟩ := h.progress
  simp [hlog, hprogress.accepted_eq_nil hf]

/-- An ACK for every offer from the first of `n + 1` steps on, and from the second. -/
theorem State.AcksEveryOffer.succ {n : Nat} {s t : State} (h : s.AcksEveryOffer (n + 1)) (hst : step s = .next t) :
    (s.fsm = .xfer → s.hostInput.ans = some .ack) ∧ t.AcksEveryOffer n :=
  ⟨h 0 s (Nat.succ_pos n) rfl, fun j u hj hu => h (j + 1) u (Nat.succ_lt_succ hj) ((run_succ_next hst).trans hu)⟩

/-- A READ on its way, with no reset and every offer acknowledged as it stands, is busy until the steps left have been made, and
then has ended with OK. -/
theorem run_acked {s : State} {n : Len} {k : Nat} {u : State} (hu : s.OnTrack n u) (hk : u.stepsLeft = k)
    (hr : u.NoReset k) (hack : u.AcksEveryOffer k) :
    (∀ j, j < k → ∃ v, run j u = .next v ∧ v.fsm ≠ .idle) ∧
      ∃ t, run k u = .next t ∧ s.OnTrack n t ∧ t.fsm = .idle ∧ t.inputs = u.inputs.drop k := by
  induction k generalizing u with
  | zero => exact ⟨nofun, u, rfl, hu, stepsLeft_eq_zero_iff.mp hk, rfl⟩
  | succ k ih =>
    have hf : u.fsm ≠ .idle := fun hidle => by simp [stepsLeft_idle hidle] at hk
    obtain ⟨v, hv⟩ := hu.inv.exists_step
    have row := stepRow_of_step hv
    obtain ⟨hreset, hreset'⟩ := hr.succ hv
    obtain ⟨hans, hack'⟩ := hack.succ hv
    have hleft := row.stepsLeft_eq hreset hu.inv hf hans
    have htrack := row.onTrack hreset (row.accepts_none hf) hu fun h => by simp [hans h]
    obtain ⟨hbusy, t, hrun, ht, hidle, hin⟩ := ih htrack (by omega) hreset' hack'
    refine ⟨fun j hj => ?_, t, (run_succ_next hv).trans hrun, ht, hidle, ?_⟩
    · cases j with
      | zero => exact ⟨u, rfl, hf⟩
      | succ j => rw [run_succ_next hv]; exact hbusy j (by omega)
    · rw [hin, row.inputs_eq, List.drop_tail]

/-- The READ of R102 from its acceptance on. -/
theorem run_acked_read {s : State} {n : Len} {a : Option Answer} (hs : s.Inv) (hf : s.fsm = .idle)
    (hi : s.hostInput = ⟨false, some (encode (.read n)), a⟩) (hr : s.NoReset (readSteps s.cfg s.cur n.toNat))
    (hack : s.AcksEveryOffer (readSteps s.cfg s.cur n.toNat)) :
    (∀ j, 0 < j → j < readSteps s.cfg s.cur n.toNat → ∃ u, run j s = .next u ∧ u.fsm ≠ .idle) ∧
      ∃ t, run (readSteps s.cfg s.cur n.toNat) s = .next t ∧
        (s.consumeInput.logAccepted (encode (.read n))).OnTrack n t ∧ t.fsm = .idle ∧
        t.inputs = s.inputs.drop (readSteps s.cfg s.cur n.toNat) := by
  have haccept := step_read hf hi
  rw [readSteps_eq] at hr hack ⊢
  obtain ⟨_, hr'⟩ := hr.succ haccept
  obtain ⟨_, hack'⟩ := hack.succ haccept
  have htrack := onTrack_accepted ((stepRow_of_step haccept).inv hs)
  have hleft := stepsLeft_accepted (s.consumeInput.logAccepted (encode (.read n))) n
  simp only [State.logAccepted_cfg, State.consumeInput_cfg, State.logAccepted_cur, State.consumeInput_cur] at hleft
  obtain ⟨hbusy, t, hrun, ht, hidle, hin⟩ := run_acked htrack hleft hr' hack'
  refine ⟨fun j hpos hj => ?_, t, (run_succ_next haccept).trans hrun, ht, hidle, by simpa using hin⟩
  obtain ⟨j, rfl⟩ : ∃ i, j = i + 1 := ⟨j - 1, by omega⟩
  rw [run_succ_next haccept]
  exact hbusy j (by simpa using Nat.lt_of_succ_lt_succ hj)

/-- Settles O50: the run of R102, and the ending of R97. -/
theorem acknowledgedReadCompletes : Obligations.AcknowledgedReadCompletes := by
  unfold Obligations.AcknowledgedReadCompletes
  intro s n a hs hf hi hr hack
  obtain ⟨hbusy, t, hrun, ht, hidle, hin⟩ := run_acked_read hs hf hi hr hack
  obtain ⟨new, hlog⟩ := ht.log
  obtain ⟨hresp, hlen, hans, hgen, hcur⟩ := ht.endsExact hs.curLe hidle hlog
  have haccepted : acceptedWords new = [] := by simpa [hlog] using ht.accepted
  exact ⟨hbusy, t, new, hrun, by simpa using hlog, hidle, hin, hresp, haccepted, hlen, hans, hgen, hcur⟩

/-! ## Chunking invariance (R96) -/

/-- Each step takes one move of the host. -/
theorem run_inputs {k : Nat} {s t : State} (h : run k s = .next t) : t.inputs = s.inputs.drop k := by
  induction k generalizing s with
  | zero => cases h; rfl
  | succ k ih =>
    obtain ⟨u, hsu, hut⟩ := run_succ_inv h
    rw [ih hut, (stepRow_of_step hsu).inputs_eq, List.drop_tail]

/-- No move of the host of `ackMoves` asserts reset. -/
theorem noReset_ackMoves (s : State) (c : Word) (n k : Nat) : (s.withInputs (ackMoves c n)).NoReset k := by
  intro i hi
  rcases List.mem_cons.mp (List.mem_of_mem_take hi) with rfl | hi
  · rfl
  · rw [List.eq_of_mem_replicate hi]

/-- Each of its moves but the first is an ACK. -/
theorem acksEveryOffer_ackMoves {s : State} (hf : s.fsm = .idle) (c : Word) (n : Nat) :
    (s.withInputs (ackMoves c n)).AcksEveryOffer n := by
  intro j u hj hrun hu
  cases j with
  | zero => cases hrun; simp [hf] at hu
  | succ j =>
    have hleft : n - 1 - j = n - 1 - j - 1 + 1 := by omega
    have hin : u.inputs = List.replicate (n - 1 - j) ⟨false, none, some .ack⟩ := by
      simpa [ackMoves] using run_inputs hrun
    rw [State.hostInput, hin, hleft, List.replicate_succ]
    rfl

/-- `t` is IDLE, and draws on from where the first `n` bytes drawn from `s` end, which have been delivered since. -/
structure State.Drawn (s : State) (n : Nat) (t : State) : Prop where
  inv : t.Inv
  idle : t.fsm = .idle
  cfg : t.cfg = s.cfg
  source : t.source = s.source.after s.cfg n
  delivered : (deliveredIn t.log).map some = (deliveredIn s.log).map some ++ s.source.bytes s.cfg n

/-- Draws one after the other are one draw. -/
theorem State.Drawn.trans {s t u : State} {m n : Nat} (h : s.Drawn m t) (h' : t.Drawn n u) : s.Drawn (m + n) u where
  inv := h'.inv
  idle := h'.idle
  cfg := h'.cfg.trans h.cfg
  source := by rw [h'.source, h.source, h.cfg, ByteSource.after_add]
  delivered := by rw [h'.delivered, h.delivered, h.source, h.cfg, ByteSource.bytes_add, List.append_assoc]

theorem ackedRead_drawn {s : State} (hs : s.Inv) (hf : s.fsm = .idle) (n : Len) :
    ∃ t, ackedRead n s = .next t ∧ s.Drawn n.toNat t := by
  obtain ⟨_, t, hrun, ht, hidle, _⟩ := run_acked_read
    (s := s.withInputs (ackMoves (encode (.read n)) (readSteps s.cfg s.cur n.toNat))) (hs.withInputs _) hf rfl
    (noReset_ackMoves s _ _ _) (acksEveryOffer_ackMoves hf _ _)
  obtain ⟨hsource, hdelivered⟩ := ht.drawn hidle
  exact ⟨t, hrun, ht.inv, hidle, ht.cfg, hsource, by simpa [State.source] using hdelivered⟩

theorem ackedReads_drawn {parts : List Len} {s : State} (hs : s.Inv) (hf : s.fsm = .idle) :
    ∃ t, ackedReads parts s = .next t ∧ s.Drawn (parts.map BitVec.toNat).sum t := by
  induction parts generalizing s with
  | nil => exact ⟨s, rfl, hs, hf, rfl, rfl, by simp [ByteSource.bytes]⟩
  | cons n parts ih =>
    obtain ⟨t, hread, ht⟩ := ackedRead_drawn hs hf n
    obtain ⟨u, hreads, hu⟩ := ih ht.inv ht.idle
    exact ⟨u, by rw [ackedReads, hread]; exact hreads, by simpa using ht.trans hu⟩

/-- Settles O54: both are the same number of bytes drawn one by one. -/
theorem chunkingInvariance : Obligations.ChunkingInvariance := by
  unfold Obligations.ChunkingInvariance
  intro s n parts hs hf hsum
  obtain ⟨t, hread, ht⟩ := ackedRead_drawn hs hf n
  obtain ⟨u, hreads, hu⟩ := ackedReads_drawn (parts := parts) hs hf
  rw [hsum] at hu
  have hsource : t.source = u.source := ht.source.trans hu.source.symm
  have hdelivered := (Option.some_injective _).list_map (ht.delivered.trans hu.delivered.symm)
  simp only [State.source, ByteSource.mk.injEq] at hsource
  obtain ⟨hgen, hbuf, hcur⟩ := hsource
  exact ⟨t, u, hread, hreads, hdelivered, hgen, hcur, hbuf⟩

end Sys2Proof.Machine
end

section
/-! PROOFS. 60_exceptions: the illegal command (R107), and the step that cannot fail (R111). -/

namespace Sys2Proof.Machine

/-! ## Every step answers a next state (60_exceptions R111, 41_stream_buffer R104) -/

/-- Settles O42: the invariant gives each row of R84 its condition, and XFER a chunk whose bytes are all known. -/
theorem noFaultUnderInvariant : Obligations.NoFaultUnderInvariant := by
  unfold Obligations.NoFaultUnderInvariant
  exact fun s hs => hs.exists_step

/-! ## The illegal command (60_exceptions R107) -/

/-- A word that stands for no command has a cause for which it is ILLEGAL. -/
theorem Decoded.exists_illegal {d : Decoded} (h : d.instr? = none) : ∃ x, d = .illegal x := by
  cases d with
  | instr i => simp [Decoded.instr?] at h
  | illegal x => exact ⟨x, rfl⟩

/-- The step in which IDLE takes a word that is no command: the host's move is taken, and the record gains the acceptance and
the error. -/
theorem step_illegal {s : State} {c : Word} {a : Option Answer} (hf : s.fsm = .idle)
    (hi : s.hostInput = ⟨false, some c, a⟩) (hd : (decode c).instr? = none) :
    step s = .next (s.consumeInput.withLog
      (s.log ++ [Event.accepted c, .responded ⟨.illegalCommand, 0#64, 0#56⟩])) := by
  obtain ⟨x, hx⟩ := Decoded.exists_illegal hd
  have hrow := step_of_stepRow (.illegal (by rw [hi]) hf (by rw [hi]) hx)
  rw [hrow, State.raise_idle (by simpa using hf)]
  simp [BlockError.status]

/-- Settles O5: the OP and LEN given are those of no command, and the step of such a word writes only the record. -/
theorem illegalCommandChangesNothing : Obligations.IllegalCommandChangesNothing := by
  unfold Obligations.IllegalCommandChangesNothing
  intro s c a hf hi hc
  have hd := instr?_decode_eq_none hc
  exact ⟨hd, _, step_illegal hf hi hd, by simp [SameBytes, hf]⟩

end Sys2Proof.Machine
end

section
/-! PROOFS. 70_reset_and_hazards: reset over every other event (R125, R126), the busy block (R131), the first commands after
reset (R128), and two blocks that cannot be told apart after a restart (R135). -/

namespace Sys2Proof.Machine

/-! ## Two states that no step tells apart (70_reset_and_hazards R135, 10_state R22) -/

/-- The two buffers read alike at the offsets `lo .. hi-1`. -/
def Memory.AgreeOn (m m' : Memory) (lo hi : Nat) : Prop :=
  ∀ a, lo ≤ a → a < hi → Memory.byteAt m a = Memory.byteAt m' a

theorem Memory.agreeOn_empty (m m' : Memory) {lo hi : Nat} (h : hi ≤ lo) : Memory.AgreeOn m m' lo hi :=
  fun _ h1 h2 => absurd h2 (by omega)

theorem Memory.AgreeOn.mono {m m' : Memory} {lo lo' hi : Nat} (h : Memory.AgreeOn m m' lo hi) (hl : lo ≤ lo') :
    Memory.AgreeOn m m' lo' hi :=
  fun a h1 h2 => h a (Nat.le_trans hl h1) h2

/-- The same bytes written right behind a range of agreement lengthen it. -/
theorem Memory.AgreeOn.putBytes_extend {m m' : Memory} {lo off : Nat} (h : Memory.AgreeOn m m' lo off) (bs : List Byte) :
    Memory.AgreeOn (Memory.putBytes m off bs) (Memory.putBytes m' off bs) lo (off + bs.length) := by
  intro a hlo hhi
  rw [Memory.byteAt_putBytes, Memory.byteAt_putBytes]
  split
  · rfl
  · exact h a hlo (by omega)

/-- MemRead reads no byte outside BUF and none before its offset. -/
theorem memRead_congr {cfg : Config} {m m' : Memory} {off n : Nat} {bs : List Byte}
    (h : Memory.AgreeOn m m' off cfg.cap) (hm : memRead cfg m off n = .ok bs) : memRead cfg m' off n = .ok bs := by
  obtain ⟨hcap, hlen, hbytes⟩ := memRead_ok hm
  rw [memRead, if_pos hcap, Memory.bytesFrom_ok]
  refine ⟨hlen, fun j hj => ⟨bs[j], List.getElem?_eq_getElem _, ?_⟩⟩
  rw [← h (off + j) (by omega) (by omega), ← hbytes j hj, List.getElem?_eq_getElem]

/-- Two states that agree on everything a step can come to read: the unread bytes of BUF, or in REFILL the bytes written so
far; and REM, ACC, K and NCH where they mean something, or everywhere if `always`. -/
structure State.Alike (always : Prop) (s s' : State) : Prop where
  cfg : s.cfg = s'.cfg
  inputs : s.inputs = s'.inputs
  log : s.log = s'.log
  gen : s.gen = s'.gen
  cur : s.cur = s'.cur
  fsm : s.fsm = s'.fsm
  rem : always ∨ s.fsm ≠ .idle → s.rem = s'.rem
  acc : always ∨ s.fsm ≠ .idle → s.acc = s'.acc
  k : always ∨ s.fsm = .refill → s.k = s'.k
  nch : always ∨ s.fsm = .xfer → s.nch = s'.nch
  unread : s.fsm ≠ .refill → Memory.AgreeOn s.buf s'.buf s.cur s.cap
  written : s.fsm = .refill → Memory.AgreeOn s.buf s'.buf 0 (8 * s.k)

/-- The counters of a READ hold the same values, whether they mean something or not. -/
structure State.SameRegisters (s s' : State) : Prop where
  rem : s.rem = s'.rem
  acc : s.acc = s'.acc
  k : s.k = s'.k
  nch : s.nch = s'.nch

/-- What reset and SEED leave: the seed, no unread byte, and no command in progress. -/
structure State.Fresh (s : State) : Prop where
  gen : s.gen = GeneratorState.seed
  cur : s.cur = s.cap
  fsm : s.fsm = .idle

theorem fresh_takeReset (s : State) : s.takeReset.Fresh := ⟨rfl, rfl, rfl⟩

theorem fresh_seed {s : State} (hf : s.fsm = .idle) (st : Status) (r : Word) (n : Len) :
    ((s.seedEngine.withCur s.cap).respond st r n).Fresh := ⟨rfl, rfl, hf⟩

/-- Two fresh states have nothing unread to differ in. -/
theorem State.Fresh.alike {always : Prop} {s s' : State} (h : s.Fresh) (h' : s'.Fresh) (hcfg : s.cfg = s'.cfg)
    (hin : s.inputs = s'.inputs) (hlog : s.log = s'.log) (hregs : always → s.SameRegisters s') : s.Alike always s' where
  cfg := hcfg
  inputs := hin
  log := hlog
  gen := h.gen.trans h'.gen.symm
  cur := by rw [h.cur, h'.cur, State.cap, State.cap, hcfg]
  fsm := h.fsm.trans h'.fsm.symm
  rem hm := (hregs (by simpa [h.fsm] using hm)).rem
  acc hm := (hregs (by simpa [h.fsm] using hm)).acc
  k hm := (hregs (by simpa [h.fsm] using hm)).k
  nch hm := (hregs (by simpa [h.fsm] using hm)).nch
  unread _ := Memory.agreeOn_empty _ _ (Nat.le_of_eq h.cur.symm)
  written hf := by simp [h.fsm] at hf

namespace State.Alike

variable {always : Prop} {s s' : State}

theorem sameMeaning (h : s.Alike always s') : s.SameMeaning s' where
  gen := h.gen
  cur := h.cur
  fsm := h.fsm
  rem hm := h.rem (.inr hm)
  acc hm := h.acc (.inr hm)
  k hm := h.k (.inr hm)
  nch hm := h.nch (.inr hm)

theorem cap (h : s.Alike always s') : s.cap = s'.cap := congrArg Config.cap h.cfg

theorem hostInput (h : s.Alike always s') : s.hostInput = s'.hostInput := by
  rw [State.hostInput, State.hostInput, h.inputs]

theorem chunkLength (h : s.Alike always s') (hf : s.fsm ≠ .idle) : s.chunkLength = s'.chunkLength := by
  rw [State.chunkLength, State.chunkLength, h.rem (.inr hf), h.cap, h.cur]

/-- A chunk that can be read on one side is the chunk on the other. -/
theorem chunk (h : s.Alike always s') (hf : s.fsm = .xfer) {bs : List Byte} (h1 : 1 ≤ s.nch) (hn : s.nch ≤ s.rem.toNat)
    (hm : memRead s.cfg s.buf s.cur s.nch = .ok bs) :
    1 ≤ s'.nch ∧ s'.nch ≤ s'.rem.toNat ∧ memRead s'.cfg s'.buf s'.cur s'.nch = .ok bs := by
  rw [← h.nch (.inr hf), ← h.rem (.inr (by simp [hf])), ← h.cfg, ← h.cur]
  exact ⟨h1, hn, memRead_congr (h.unread (by simp [hf])) hm⟩

/-! What the rows do to alike states leaves them alike. -/

theorem consumeInput (h : s.Alike always s') : s.consumeInput.Alike always s'.consumeInput :=
  { h with inputs := congrArg List.tail h.inputs }

theorem pushLog (h : s.Alike always s') (e : Event) : (s.pushLog e).Alike always (s'.pushLog e) :=
  { h with log := congrArg (· ++ [e]) h.log }

theorem respond (h : s.Alike always s') (st : Status) (r : Word) (n : Len) :
    (s.respond st r n).Alike always (s'.respond st r n) := h.pushLog _

theorem withGen (h : s.Alike always s') (g : GeneratorState) : (s.withGen g).Alike always (s'.withGen g) :=
  { h with gen := rfl }

theorem toIdle (h : s.Alike always s') (hf : s.fsm ≠ .refill) : (s.withFsm .idle).Alike always (s'.withFsm .idle) :=
  { h with
    fsm := rfl
    rem := fun hm => h.rem (hm.imp_right fun hi => absurd rfl hi)
    acc := fun hm => h.acc (hm.imp_right fun hi => absurd rfl hi)
    k := fun hm => h.k (hm.imp_right nofun)
    nch := fun hm => h.nch (hm.imp_right nofun)
    unread := fun _ => h.unread hf
    written := nofun }

theorem raise (h : s.Alike always s') (hf : s.fsm ≠ .refill) (e : BlockError) (n : Len) :
    (s.raise e n).Alike always (s'.raise e n) := (h.respond _ _ _).toIdle hf

theorem takeReset (h : s.Alike always s') : s.takeReset.Alike always s'.takeReset :=
  (fresh_takeReset s).alike (fresh_takeReset s') h.cfg h.inputs (by simp [h.log, h.fsm]) fun _ => ⟨rfl, rfl, rfl, rfl⟩

theorem seed (h : s.Alike always s') (hf : s.fsm = .idle) (st : Status) (r : Word) (n : Len) :
    ((s.seedEngine.withCur s.cap).respond st r n).Alike always ((s'.seedEngine.withCur s'.cap).respond st r n) :=
  (fresh_seed hf ..).alike (fresh_seed (h.fsm ▸ hf) ..) h.cfg h.inputs (by simp [h.log])
    fun hm => ⟨h.rem (.inl hm), h.acc (.inl hm), h.k (.inl hm), h.nch (.inl hm)⟩

theorem startRead (h : s.Alike always s') (hf : s.fsm = .idle) (n : Len) :
    ((s.loadRead n).withFsm .readLoop).Alike always ((s'.loadRead n).withFsm .readLoop) :=
  { h with
    fsm := rfl
    rem := fun _ => rfl
    acc := fun _ => rfl
    k := fun hm => h.k (hm.imp_right nofun)
    nch := fun hm => h.nch (hm.imp_right nofun)
    unread := fun _ => h.unread (by simp [hf])
    written := nofun }

theorem startRefill (h : s.Alike always s') (hf : s.fsm = .readLoop) :
    ((s.withK 0).withFsm .refill).Alike always ((s'.withK 0).withFsm .refill) :=
  { h with
    fsm := rfl
    rem := fun _ => h.rem (.inr (by simp [hf]))
    acc := fun _ => h.acc (.inr (by simp [hf]))
    k := fun _ => rfl
    nch := fun hm => h.nch (hm.imp_right nofun)
    unread := fun hn => absurd rfl hn
    written := fun _ => Memory.agreeOn_empty _ _ (Nat.le_refl 0) }

theorem startOffer (h : s.Alike always s') (hf : s.fsm = .readLoop) (n : Nat) :
    ((s.withNch n).withFsm .xfer).Alike always ((s'.withNch n).withFsm .xfer) :=
  { h with
    fsm := rfl
    rem := fun _ => h.rem (.inr (by simp [hf]))
    acc := fun _ => h.acc (.inr (by simp [hf]))
    k := fun hm => h.k (hm.imp_right nofun)
    nch := fun _ => rfl
    unread := fun _ => h.unread (by simp [hf])
    written := nofun }

/-- A refill step writes the same word behind the words on which the buffers agree. -/
theorem refillWord (h : s.Alike always s') (hf : s.fsm = .refill) (g : GeneratorState) (bo : ByteOrder) (w : Word) :
    (((s.withGen g).withBuf (Memory.putBytes s.buf (8 * s.k) (bytesBO bo w))).withK (s.k + 1)).Alike always
      (((s'.withGen g).withBuf (Memory.putBytes s'.buf (8 * s'.k) (bytesBO bo w))).withK (s'.k + 1)) :=
  { h with
    gen := rfl
    k := fun _ => congrArg (· + 1) (h.k (.inr hf))
    unread := fun hn => absurd hf hn
    written := fun _ => by
      rw [← h.k (.inr hf)]
      simpa [Nat.mul_add] using (h.written hf).putBytes_extend (bytesBO bo w) }

/-- A complete refill has written all of BUF. -/
theorem endRefill (h : s.Alike always s') (hf : s.fsm = .refill) (hk : s.k = s.cfg.capWords) :
    ((s.withCur 0).withFsm .readLoop).Alike always ((s'.withCur 0).withFsm .readLoop) :=
  { h with
    cur := rfl
    fsm := rfl
    rem := fun _ => h.rem (.inr (by simp [hf]))
    acc := fun _ => h.acc (.inr (by simp [hf]))
    k := fun _ => h.k (.inr hf)
    nch := fun hm => h.nch (hm.imp_right nofun)
    unread := fun _ => by simpa [hk, State.cap, Config.cap] using h.written hf
    written := nofun }

theorem endOffer (h : s.Alike always s') (hf : s.fsm = .xfer) :
    (s.consumeChunk.withFsm .readLoop).Alike always (s'.consumeChunk.withFsm .readLoop) := by
  have hrem := h.rem (.inr (by simp [hf]))
  have hacc := h.acc (.inr (by simp [hf]))
  have hnch := h.nch (.inr hf)
  exact { h with
    cur := by simp [h.cur, hnch]
    fsm := rfl
    rem := fun _ => by simp [hrem, hnch]
    acc := fun _ => by simp [hacc, hnch]
    k := fun hm => h.k (hm.imp_right nofun)
    nch := fun _ => hnch
    unread := fun _ => (h.unread (by simp [hf])).mono (Nat.le_add_right ..)
    written := nofun }

end State.Alike

/-- Two alike states make the same row, and are alike after it. -/
theorem StepRow.alike {always : Prop} {s s' t : State} (row : StepRow s t) (h : s.Alike always s') :
    ∃ t', StepRow s' t' ∧ t.Alike always t' := by
  have hs := h.consumeInput
  have hin := h.hostInput
  cases row with
  | reset hr => exact ⟨_, .reset (hin ▸ hr), hs.takeReset⟩
  | idleQuiet hr hf hw => exact ⟨_, .idleQuiet (hin ▸ hr) (h.fsm ▸ hf) (hin ▸ hw), hs⟩
  | seed hr hf hw hd =>
    exact ⟨_, .seed (hin ▸ hr) (h.fsm ▸ hf) (hin ▸ hw) hd, (hs.pushLog _).seed hf ..⟩
  | next hr hf hw hd =>
    refine ⟨_, .next (hin ▸ hr) (h.fsm ▸ hf) (hin ▸ hw) hd, ?_⟩
    rw [← h.gen]
    exact ((hs.pushLog _).withGen _).respond ..
  | read hr hf hw hd =>
    exact ⟨_, .read (hin ▸ hr) (h.fsm ▸ hf) (hin ▸ hw) hd, (hs.pushLog _).startRead hf _⟩
  | write hr hf hw hd =>
    exact ⟨_, .write (hin ▸ hr) (h.fsm ▸ hf) (hin ▸ hw) hd, (hs.pushLog _).raise (by simp [hf]) ..⟩
  | illegal hr hf hw hd =>
    exact ⟨_, .illegal (hin ▸ hr) (h.fsm ▸ hf) (hin ▸ hw) hd, (hs.pushLog _).raise (by simp [hf]) ..⟩
  | loopDone hr hf hrem =>
    have hb : s.fsm ≠ .idle := by simp [hf]
    refine ⟨_, .loopDone (hin ▸ hr) (h.fsm ▸ hf) (h.rem (.inr hb) ▸ hrem), ?_⟩
    rw [← h.acc (.inr hb)]
    exact (hs.respond ..).toIdle (by simp [hf])
  | loopRefill hr hf hrem hc =>
    have hb : s.fsm ≠ .idle := by simp [hf]
    exact ⟨_, .loopRefill (hin ▸ hr) (h.fsm ▸ hf) (h.rem (.inr hb) ▸ hrem) (by rw [← h.cur, ← h.cap, hc]),
      hs.startRefill hf⟩
  | loopXfer hr hf hrem hc =>
    have hb : s.fsm ≠ .idle := by simp [hf]
    refine ⟨_, .loopXfer (hin ▸ hr) (h.fsm ▸ hf) (h.rem (.inr hb) ▸ hrem) (by rwa [← h.cur, ← h.cap]), ?_⟩
    rw [← h.chunkLength hb]
    exact hs.startOffer hf _
  | refillWord hr hf hk =>
    refine ⟨_, .refillWord (hin ▸ hr) (h.fsm ▸ hf) (by rwa [← h.k (.inr hf), ← h.cfg]), ?_⟩
    rw [← h.gen, ← h.cfg]
    exact hs.refillWord hf ..
  | refillEnd hr hf hk =>
    exact ⟨_, .refillEnd (hin ▸ hr) (h.fsm ▸ hf) (by rw [← h.k (.inr hf), ← h.cfg, hk]), hs.endRefill hf hk⟩
  | xferWaits hr hf ha => exact ⟨_, .xferWaits (hin ▸ hr) (h.fsm ▸ hf) (hin ▸ ha), hs⟩
  | xferAck hr hf ha h1 hn hm =>
    obtain ⟨h1', hn', hm'⟩ := h.chunk hf h1 hn hm
    exact ⟨_, .xferAck (hin ▸ hr) (h.fsm ▸ hf) (hin ▸ ha) h1' hn' hm', (hs.pushLog _).endOffer hf⟩
  | xferFault hr hf ha h1 hn hm =>
    obtain ⟨h1', hn', hm'⟩ := h.chunk hf h1 hn hm
    refine ⟨_, .xferFault (hin ▸ hr) (h.fsm ▸ hf) (hin ▸ ha) h1' hn' hm', ?_⟩
    rw [← h.acc (.inr (by simp [hf]))]
    exact (hs.pushLog _).raise (by simp [hf]) ..

/-- Alike states have runs alike. -/
theorem run_alike {always : Prop} {k : Nat} {s s' t t' : State} (h : s.Alike always s') (hrun : run k s = .next t)
    (hrun' : run k s' = .next t') : t.Alike always t' := by
  induction k generalizing s s' with
  | zero => cases hrun; cases hrun'; exact h
  | succ k ih =>
    obtain ⟨u, hsu, hut⟩ := run_succ_inv hrun
    obtain ⟨u', hsu', hut'⟩ := run_succ_inv hrun'
    obtain ⟨v, row, hv⟩ := (stepRow_of_step hsu).alike h
    have hstep := step_of_stepRow row
    rw [hsu'] at hstep
    cases hstep
    exact ih hv hut hut'

/-- States that are alike but for their records add the same events to them: no step reads the record. -/
theorem run_alike_log {always : Prop} {k : Nat} {s s' t t' : State} (h : (s.withLog []).Alike always (s'.withLog []))
    (hrun : run k s = .next t) (hrun' : run k s' = .next t') :
    ∃ new, t.log = s.log ++ new ∧ t'.log = s'.log ++ new ∧ (t.withLog []).Alike always (t'.withLog []) := by
  obtain ⟨new, hnew, hover⟩ := run_withLog hrun
  obtain ⟨new', hnew', hover'⟩ := run_withLog hrun'
  have ht := run_alike h (hover []) (hover' [])
  have hsame : new = new' := ht.log
  subst hsame
  exact ⟨new, hnew, hnew', { ht with log := rfl }⟩

/-- Fresh states with the same parameters and the same host are alike but for their records. -/
theorem State.Fresh.alike_log {always : Prop} {s s' : State} (h : s.Fresh) (h' : s'.Fresh) (hcfg : s.cfg = s'.cfg)
    (hin : s.inputs = s'.inputs) (hregs : always → s.SameRegisters s') :
    (s.withLog []).Alike always (s'.withLog []) :=
  State.Fresh.alike ⟨h.gen, h.cur, h.fsm⟩ ⟨h'.gen, h'.cur, h'.fsm⟩ hcfg hin rfl fun ha => { hregs ha with }

/-- Settles O37: reset leaves the two blocks alike, registers and all, so their runs are. -/
theorem resetForgetsThePast : Obligations.ResetForgetsThePast := by
  unfold Obligations.ResetForgetsThePast
  intro s s' t t' k hcfg hr hr' hin hrun hrun'
  rw [run_succ_next (step_reset hr)] at hrun
  rw [run_succ_next (step_reset hr')] at hrun'
  have hreset := (fresh_takeReset s.consumeInput).alike_log (always := True) (fresh_takeReset s'.consumeInput) hcfg hin
    fun _ => ⟨rfl, rfl, rfl, rfl⟩
  obtain ⟨new, hnew, hnew', h⟩ := run_alike_log hreset hrun hrun'
  exact ⟨_, _, new, by simpa using hnew, by simpa using hnew', h.gen, h.cur, h.fsm, h.rem (.inl trivial),
    h.k (.inl trivial), h.nch (.inl trivial), h.acc (.inl trivial)⟩

/-- Reset and SEED both leave a fresh state. -/
theorem State.Restarts.step_fresh {s : State} (h : s.Restarts) :
    ∃ u, step s = .next u ∧ u.Fresh ∧ u.cfg = s.cfg ∧ u.inputs = s.inputs.tail := by
  rcases h with hr | ⟨hf, c, a, hi, hd⟩
  · exact ⟨_, step_reset hr, fresh_takeReset _, rfl, rfl⟩
  · have row := StepRow.seed (by rw [hi]) hf (by rw [hi]) hd
    exact ⟨_, step_of_stepRow row, fresh_seed (s := s.consumeInput.logAccepted c) hf .., row.cfg_eq, row.inputs_eq⟩

/-- Settles O38: each restart leaves a fresh state, the two are alike in all that means something, and so are their runs. -/
theorem restartRepeatsTheStream : Obligations.RestartRepeatsTheStream := by
  unfold Obligations.RestartRepeatsTheStream
  intro s s' t t' k hcfg hs hs' hin hrun hrun'
  obtain ⟨u, hsu, hu, hucfg, huin⟩ := hs.step_fresh
  obtain ⟨u', hsu', hu', hucfg', huin'⟩ := hs'.step_fresh
  rw [run_succ_next hsu] at hrun
  rw [run_succ_next hsu'] at hrun'
  obtain ⟨new, hnew, hnew', h⟩ := run_alike_log (always := False)
    (hu.alike_log hu' (by rw [hucfg, hucfg', hcfg]) (by rw [huin, huin', hin]) False.elim) hrun hrun'
  obtain ⟨hgen, hcur, hfsm, hrem, hacc, hk, hnch⟩ := h.sameMeaning
  exact ⟨u, u', new, hsu, hsu', hnew, hnew', hgen, hcur, hfsm, hrem, hacc, hk, hnch⟩

/-! ## The busy block (70_reset_and_hazards R131, 41_stream_buffer R82) -/

/-- Outside IDLE no row of R84 looks at the word. -/
theorem fsmStep_busy {i i' : HostInput} {s : State} (hf : s.fsm ≠ .idle) (ha : i.ans = i'.ans) :
    fsmStep i s = fsmStep i' s := by
  cases hs : s.fsm with
  | idle => exact absurd hs hf
  | readLoop => rw [fsmStep_readLoop hs, fsmStep_readLoop hs]
  | refill => rw [fsmStep_refill hs, fsmStep_refill hs]
  | xfer =>
    cases hi : i.ans with
    | none => rw [fsmStep_xfer_none hs hi, fsmStep_xfer_none hs (ha ▸ hi)]
    | some a => rw [fsmStep_xfer_some hs hi, fsmStep_xfer_some hs (ha ▸ hi)]

/-- Settles O27: the word is looked at in IDLE alone, and an acceptance is a row of IDLE. -/
theorem busyBlockIgnoresWords : Obligations.BusyBlockIgnoresWords := by
  unfold Obligations.BusyBlockIgnoresWords
  refine fun s r a w w' rest hf =>
    ⟨?step, fun t h => (stepRow_of_step h).accepts_none hf⟩
  case step =>
    cases r with
    | true => rw [step_reset rfl, step_reset rfl]; rfl
    | false => rw [step_fsm rfl, step_fsm rfl]; exact fsmStep_busy hf rfl

/-! ## Reset (70_reset_and_hazards R125, R126) -/

/-- Settles O34: the reset row, and what `takeReset` writes. -/
theorem resetTakesPrecedence : Obligations.ResetTakesPrecedence := by
  unfold Obligations.ResetTakesPrecedence
  intro s hr
  refine ⟨_, step_reset hr, GeneratorState.word_seed, ?pointer, ?cursor, ?fsm, ?rem, ?k, ?nch, ?acc, ?bytes, ?cfg, ?inputs,
    ?log, ?offer⟩
  case bytes => exact fun _ => rfl
  all_goals rfl

/-! ## The first commands after reset (70_reset_and_hazards R128) -/

/-- A READ of some bytes in a fresh state has after three steps put the first output of the seed at the front of BUF. -/
theorem State.Fresh.run_read {s : State} (h : s.Fresh) (hwf : s.cfg.wf = true) {n : Len} {i j : HostInput}
    (rest : List HostInput) (hn : n ≠ 0#56) (hi : i.reset = false) (hj : j.reset = false) :
    ∃ u, run 3 (s.withInputs (⟨false, some (encode (.read n)), none⟩ :: i :: j :: rest)) = .next u ∧
      u.fsm = .refill ∧ u.k = 1 ∧ u.rem = n ∧
      u.buf = Memory.putBytes s.buf 0 (bytesBO s.cfg.byteOrder (engineStep GeneratorState.seed).2) := by
  have haccept := step_read_accepted n (i :: j :: rest) h.fsm
  have hrefill := step_readLoop_refill
    (s := (((s.withInputs (i :: j :: rest)).logAccepted (encode (.read n))).loadRead n).withFsm .readLoop)
    hi (by simp) (by simpa using hn) (by simpa using h.cur)
  have hword := step_refill_word
    (s := (((((s.withInputs (j :: rest)).logAccepted (encode (.read n))).loadRead n).withFsm .readLoop).withK 0).withFsm
      .refill) hj (by simp) (by simpa [Config.wf, Nat.succ_le_iff] using hwf)
  exact ⟨_, (run_succ_next haccept).trans ((run_succ_next hrefill).trans ((run_succ_next hword).trans (run_zero _))),
    by simp [h.gen]⟩

/-- Settles O36: NEXT and the refill both take the first output of the seed. -/
theorem firstCommandAfterReset : Obligations.FirstCommandAfterReset := by
  unfold Obligations.FirstCommandAfterReset
  intro s t hwf hr h
  rw [step_reset hr] at h
  cases h
  refine ⟨⟨_, exec_next _, by simp [engineStep_seed_output]⟩, fun n i j rest hn hi hj => ?read⟩
  case read =>
    obtain ⟨u, hrun, hf, hk, hrem, hbuf⟩ := (fresh_takeReset s.consumeInput).run_read hwf rest hn hi hj
    refine ⟨u, hrun, hf, hk, hrem, fun x hx => ?_⟩
    rw [hbuf, engineStep_seed_output]
    simpa using Memory.byteAt_putWord s.buf 0 s.cfg.byteOrder _ hx

end Sys2Proof.Machine
end

section
/-! PROOFS. 30_encoding R64, 60_exceptions R124: the answer that comes while no chunk is on offer (log entry 8). -/

namespace Sys2Proof.Machine

/-- Without an offer the row depends on the host's move through the word alone. -/
theorem fsmStep_withoutOffer {i i' : HostInput} {s : State} (hf : s.fsm ≠ .xfer) (hw : i.word = i'.word) :
    fsmStep i s = fsmStep i' s := by
  cases hs : s.fsm with
  | idle =>
    cases hi : i.word with
    | none => rw [fsmStep_idle_none hs hi, fsmStep_idle_none hs (hw ▸ hi)]
    | some c => rw [fsmStep_idle_some hs hi, fsmStep_idle_some hs (hw ▸ hi)]
  | readLoop => rw [fsmStep_readLoop hs, fsmStep_readLoop hs]
  | refill => rw [fsmStep_refill hs, fsmStep_refill hs]
  | xfer => exact absurd hs hf

/-- Settles O28: reset does not look at the answer, and of the rows of R84 only XFER's does. -/
theorem answerWithoutOfferIsIgnored : Obligations.AnswerWithoutOfferIsIgnored := by
  unfold Obligations.AnswerWithoutOfferIsIgnored
  intro s r w a a' rest hf
  cases r with
  | true => rw [step_reset rfl, step_reset rfl]; rfl
  | false => rw [step_fsm rfl, step_fsm rfl]; exact fsmStep_withoutOffer hf rfl

end Sys2Proof.Machine
end
